-- ==== Sys2Proof/Word.lean ====
section
/-! DEFINITION. The words of the slcan-bridge CORE: what the spec treats as bits (00_scope.md section 4,
30_encoding.md R40 and R41). Every value is unsigned. -/

namespace Sys2Proof

/-- One byte: a LINE cell (10_state.md R17) or a payload byte (20_memory.md R33). -/
abbrev Byte := BitVec 8

/-- The 128-bit operand and result format (30_encoding.md R41, R42). -/
abbrev FrameWord := BitVec 128

/-- The 4-bit command `OP` (10_state.md R11, 30_encoding.md R40). -/
abbrev OpCode := BitVec 4

end Sys2Proof
end

