-- ==== Sys2Proof/Config.lean ====
section
/-! DEFINITION. The fixed parameters of the block (00_scope.md section 3) and the form of the line
configuration: the two points of the line that the spec treats as parameters with a default
(93_implementation_defined.md I1 and I3). The defaults themselves stand in Machine/LineEncode.lean.
The spec leaves no value of an operation open, so there is no free value. -/

namespace Sys2Proof.Config

/-- STD_ID_MAX, the largest Standard identifier (00_scope.md R2). -/
abbrev stdIdMax : Nat := 0x7FF

/-- EXT_ID_MAX, the largest Extended identifier (00_scope.md R2). -/
abbrev extIdMax : Nat := 0x1FFFFFFF

/-- MAX_DLC, the largest data-length code of a valid frame (00_scope.md R3). -/
abbrev maxDlc : Nat := 8

/-- PAYLOAD_CAP, the payload capacity in bytes (00_scope.md R3). -/
abbrev payloadCap : Nat := 8

/-- STD_ID_DIGITS: hex digits of a Standard identifier in a line (30_encoding.md R46, R49). -/
abbrev stdIdDigits : Nat := 3

/-- EXT_ID_DIGITS: hex digits of an Extended identifier in a line (30_encoding.md R46, R49). -/
abbrev extIdDigits : Nat := 8

/-- LINE_CAP, the number of LINE cells, terminator included (00_scope.md R4; 90_conflicts.md C1: 27,
not 26; log 8). -/
abbrev lineCap : Nat := 27

/-- The terminator that ends every line, carriage return (30_encoding.md R46). -/
abbrev terminator : Byte := 0x0D#8

end Sys2Proof.Config
end

