-- ==== Sys2Proof/Syntax.lean ====
section
/-! DEFINITION. The abstract values of 10_state.md R20 to R22, the command as the host presents it
(10_state.md R11, R12), and the operations: one constructor of `Instr` per row of
spec/opcode_table.json, its arguments exactly the fields its reading lists (30_encoding.md R43). -/

namespace Sys2Proof

/-- The identifier tag, the IDE bit: Standard (IDE = 0, 11-bit) or Extended (IDE = 1, 29-bit)
(10_state.md R20). -/
inductive IdTag where
  | standard
  | extended
deriving DecidableEq, Repr

/-- The frame kind, the RTR bit: data (RTR = 0) or remote (RTR = 1) (30_encoding.md R42). -/
inductive FrameKind where
  | data
  | remote
deriving DecidableEq, Repr

/-- An identifier `(ide, value)`; it is valid when `Machine.idOk` holds (10_state.md R20). The value is as
wide as the ID field, so an out-of-range value can be held and rejected (30_encoding.md R42). -/
structure Identifier where
  tag   : IdTag
  value : BitVec 32
deriving DecidableEq, Repr

/-- A payload of `len` bytes, of which the first `min len 8` are held: past the capacity only the length
matters (30_encoding.md R43, payload argument). -/
structure Payload where
  len  : BitVec 8
  held : List Byte
deriving DecidableEq, Repr

/-- A DriverFrame `(id, rtr, dlc, payload)`; the payload object may be absent (10_state.md R21). -/
structure DriverFrame where
  id      : Identifier
  kind    : FrameKind
  dlc     : BitVec 8
  payload : Option Payload
deriving DecidableEq, Repr

/-- A ProtocolFrame `(id, rtr, len, payload)` (10_state.md R22). -/
structure ProtocolFrame where
  id      : Identifier
  kind    : FrameKind
  len     : BitVec 8
  payload : List Byte
deriving DecidableEq, Repr

/-- What the host presents when it issues: `OP` and `OPD`, whole (10_state.md R11, R12; 20_memory.md R34). -/
structure Command where
  op  : OpCode
  opd : FrameWord
deriving DecidableEq, Repr

/-- The operations: one constructor per row of spec/opcode_table.json (30_encoding.md R40). -/
inductive Instr where
  /-- ID_STD, raw-value reading (40_identifier.md R61). -/
  | idStd (v : BitVec 32)
  /-- ID_EXT, raw-value reading (40_identifier.md R62). -/
  | idExt (v : BitVec 32)
  /-- TO_PROTOCOL_ID, identifier reading (40_identifier.md R63). -/
  | toProtocolId (id : Identifier)
  /-- TO_DRIVER_ID, identifier reading (40_identifier.md R64). -/
  | toDriverId (id : Identifier)
  /-- PF_NEW_DATA, payload-argument reading (41_frame_construct.md R71). -/
  | pfNewData (id : Identifier) (p : Payload)
  /-- PF_NEW_REMOTE, length-argument reading (41_frame_construct.md R73). -/
  | pfNewRemote (id : Identifier) (n : BitVec 8)
  /-- DF_NEW_DATA, payload-argument reading (41_frame_construct.md R75). -/
  | dfNewData (id : Identifier) (p : Payload)
  /-- DF_NEW_REMOTE, length-argument reading (41_frame_construct.md R77). -/
  | dfNewRemote (id : Identifier) (n : BitVec 8)
  /-- TO_PROTOCOL, driver reading (42_translate.md R81). -/
  | toProtocol (f : DriverFrame)
  /-- TO_DRIVER, protocol reading (42_translate.md R83). -/
  | toDriver (f : ProtocolFrame)
  /-- ENCODE_LINE, protocol reading (43_line_encode.md R91). -/
  | encodeLine (f : ProtocolFrame)
deriving DecidableEq, Repr

end Sys2Proof
end

