-- ==== Sys2Proof/WellFormed.lean ====
section
/-! DEFINITION. Well-formed operands: the bytes an operand holds are exactly those its reading says it
holds (30_encoding.md R43). A well-formed operation need not succeed: an identifier out of range or a
length above 8 is a well-formed operand that ends in absence (30_encoding.md R52). -/

namespace Sys2Proof

/-- A payload of `n` bytes holds bytes 0 to `min n 8 - 1` (30_encoding.md R43, payload argument). -/
def Payload.wf (p : Payload) : Bool :=
  p.held.length == min p.len.toNat Config.payloadCap

/-- A present payload object of a driver operand is a payload argument (30_encoding.md R43, driver). -/
def DriverFrame.wf (f : DriverFrame) : Bool :=
  match f.payload with
  | none => true
  | some p => p.wf

/-- How many payload bytes the protocol reading takes: `len` for a data frame whose length fits, none for a
remote frame; a data frame whose length does not fit is no valid ProtocolFrame and holds none
(30_encoding.md R43, protocol). -/
def protocolPayloadLength (kind : FrameKind) (len : BitVec 8) : Nat :=
  match kind with
  | .remote => 0
  | .data => if len.toNat ≤ Config.maxDlc then len.toNat else 0

/-- A protocol operand holds the payload bytes of the protocol reading (30_encoding.md R43). -/
def ProtocolFrame.wf (f : ProtocolFrame) : Bool :=
  f.payload.length == protocolPayloadLength f.kind f.len

/-- The checks, constructor by constructor: a raw value, an identifier and a length argument admit every
value of their fields. -/
def Instr.wf : Instr → Bool
  | .idStd _ => true
  | .idExt _ => true
  | .toProtocolId _ => true
  | .toDriverId _ => true
  | .pfNewData _ p => p.wf
  | .pfNewRemote _ _ => true
  | .dfNewData _ p => p.wf
  | .dfNewRemote _ _ => true
  | .toProtocol f => f.wf
  | .toDriver f => f.wf
  | .encodeLine f => f.wf

end Sys2Proof
end

