-- ==== Sys2Proof/Decode.lean ====
section
/-! DEFINITION. The encodings: the frame word's fields (30_encoding.md R42), the six readings (R43), the
decoder from a command to an operation (R40, R52) and the encoder back. The decoder is total: every one of
the 16 values of OP and every frame word has an answer, and a reserved OP is rejected by name. -/

namespace Sys2Proof

/-! ### The frame word's fields (30_encoding.md R42) -/

/-- Field ID, bits [31:0]. -/
def fieldId (w : FrameWord) : BitVec 32 := w.extractLsb' 0 32

/-- Field IDE, bit [32]. -/
def fieldIde (w : FrameWord) : BitVec 1 := w.extractLsb' 32 1

/-- Field RTR, bit [33]. -/
def fieldRtr (w : FrameWord) : BitVec 1 := w.extractLsb' 33 1

/-- Field PP, bit [34]: a payload object is present. -/
def fieldPp (w : FrameWord) : BitVec 1 := w.extractLsb' 34 1

/-- Field LEN, bits [47:40]. -/
def fieldLen (w : FrameWord) : BitVec 8 := w.extractLsb' 40 8

/-- Field PLEN, bits [55:48]. -/
def fieldPlen (w : FrameWord) : BitVec 8 := w.extractLsb' 48 8

/-- Field DATA, bits [127:64], the payload half (30_encoding.md R41). -/
def fieldData (w : FrameWord) : BitVec 64 := w.extractLsb' 64 64

/-- `DATA[i]`, bits [64+8i+7 : 64+8i] of the frame word (20_memory.md R33, 30_encoding.md R42). -/
def dataByte (w : FrameWord) (i : Nat) : Byte := w.extractLsb' (64 + 8 * i) 8

/-- `[DATA[0], ..., DATA[n-1]]`. -/
def dataBytes (w : FrameWord) (n : Nat) : List Byte := (List.range n).map (dataByte w)

/-- The IDE bit as a tag: 0 Standard, 1 Extended. -/
def tagOfBit (b : BitVec 1) : IdTag := if b = 0#1 then .standard else .extended

/-- The tag's IDE bit. -/
def bitOfTag : IdTag → BitVec 1
  | .standard => 0#1
  | .extended => 1#1

/-- The RTR bit as a frame kind: 0 data, 1 remote. -/
def kindOfBit (b : BitVec 1) : FrameKind := if b = 0#1 then .data else .remote

/-- The kind's RTR bit. -/
def bitOfKind : FrameKind → BitVec 1
  | .data => 0#1
  | .remote => 1#1

/-! ### The six readings (30_encoding.md R43) -/

/-- Raw value: ID alone; IDE is ignored (92_eei_decisions.md D32). -/
def readRawValue (w : FrameWord) : BitVec 32 := fieldId w

/-- Identifier: IDE and ID. -/
def readIdentifier (w : FrameWord) : Identifier := ⟨tagOfBit (fieldIde w), fieldId w⟩

/-- The payload of a payload argument: PLEN bytes, of which bytes 0 to `min PLEN 8 - 1` are held. -/
def readPayload (w : FrameWord) : Payload :=
  ⟨fieldPlen w, dataBytes w (min (fieldPlen w).toNat Config.payloadCap)⟩

/-- The length of a length argument: LEN. -/
def readLength (w : FrameWord) : BitVec 8 := fieldLen w

/-- Driver: the payload is absent if PP = 0 and otherwise read as a payload argument. -/
def readDriver (w : FrameWord) : DriverFrame :=
  { id := readIdentifier w
    kind := kindOfBit (fieldRtr w)
    dlc := fieldLen w
    payload := if fieldPp w = 0#1 then none else some (readPayload w) }

/-- Protocol: the payload is DATA[0..LEN-1] for a data frame of length at most 8; PP and PLEN are ignored. -/
def readProtocol (w : FrameWord) : ProtocolFrame :=
  { id := readIdentifier w
    kind := kindOfBit (fieldRtr w)
    len := fieldLen w
    payload := dataBytes w (protocolPayloadLength (kindOfBit (fieldRtr w)) (fieldLen w)) }

/-! ### The decoder (30_encoding.md R40, R52) -/

/-- Why a command is no operation of the block. -/
inductive DecodeError where
  /-- OP is one of the reserved values 0x0 and 0xC..0xF (30_encoding.md R52). -/
  | reservedOp (op : OpCode)
  /-- A number that does not hold a 4-bit OP and a 128-bit OPD in the model's numbering (log 14). -/
  | notACommand (w : Nat)
deriving DecidableEq, Repr

/-- The operation a command selects: OP by its full 4-bit value, the operand by the operation's reading. -/
def decode (c : Command) : Except DecodeError Instr :=
  match c.op with
  | 0x1#4 => .ok (.idStd (readRawValue c.opd))
  | 0x2#4 => .ok (.idExt (readRawValue c.opd))
  | 0x3#4 => .ok (.toProtocolId (readIdentifier c.opd))
  | 0x4#4 => .ok (.toDriverId (readIdentifier c.opd))
  | 0x5#4 => .ok (.pfNewData (readIdentifier c.opd) (readPayload c.opd))
  | 0x6#4 => .ok (.pfNewRemote (readIdentifier c.opd) (readLength c.opd))
  | 0x7#4 => .ok (.dfNewData (readIdentifier c.opd) (readPayload c.opd))
  | 0x8#4 => .ok (.dfNewRemote (readIdentifier c.opd) (readLength c.opd))
  | 0x9#4 => .ok (.toProtocol (readDriver c.opd))
  | 0xA#4 => .ok (.toDriver (readProtocol c.opd))
  | 0xB#4 => .ok (.encodeLine (readProtocol c.opd))
  | op => .error (.reservedOp op)

/-! ### Assembling a frame word (30_encoding.md R42, R53) -/

/-- The fields of a frame word as a field list: a field left out is 0 (30_encoding.md R53). -/
structure WordFields where
  id   : BitVec 32 := 0#32
  ide  : BitVec 1 := 0#1
  rtr  : BitVec 1 := 0#1
  pp   : BitVec 1 := 0#1
  len  : BitVec 8 := 0#8
  plen : BitVec 8 := 0#8
  data : BitVec 64 := 0#64
deriving DecidableEq, Repr

/-- The frame word of a field list, from bit 127 down: DATA, eight reserved bits, PLEN, LEN, five reserved
bits, PP, RTR, IDE, ID; the reserved bits are 0 (30_encoding.md R42). -/
def assembleWord (f : WordFields) : FrameWord :=
  f.data ++ 0#8 ++ f.plen ++ f.len ++ 0#5 ++ f.pp ++ f.rtr ++ f.ide ++ f.id

/-- The payload half that holds the given bytes, byte `i` at bits [8i+7 : 8i], and 0 above them
(20_memory.md R33; 30_encoding.md R44). -/
def packData : List Byte → BitVec 64
  | [] => 0#64
  | b :: bs => packData bs <<< 8 ||| b.setWidth 64

/-! ### The encoder -/

/-- The fields that carry an identifier. -/
def identifierFields (id : Identifier) : WordFields :=
  { id := id.value, ide := bitOfTag id.tag }

/-- The fields of a payload argument. -/
def payloadFields (id : Identifier) (p : Payload) : WordFields :=
  { identifierFields id with plen := p.len, data := packData p.held }

/-- The fields of a length argument. -/
def lengthFields (id : Identifier) (n : BitVec 8) : WordFields :=
  { identifierFields id with len := n }

/-- The fields of a driver operand. -/
def driverFields (f : DriverFrame) : WordFields :=
  match f.payload with
  | none => { identifierFields f.id with rtr := bitOfKind f.kind, len := f.dlc }
  | some p =>
    { payloadFields f.id p with rtr := bitOfKind f.kind, len := f.dlc, pp := 1#1 }

/-- The fields of a protocol operand. -/
def protocolFields (f : ProtocolFrame) : WordFields :=
  { identifierFields f.id with rtr := bitOfKind f.kind, len := f.len, data := packData f.payload }

/-- The command of an operation: its OP (30_encoding.md R40) and a frame word that holds its operand, with
every field its reading does not list 0. -/
def encode : Instr → Command
  | .idStd v => ⟨0x1#4, assembleWord { id := v }⟩
  | .idExt v => ⟨0x2#4, assembleWord { id := v }⟩
  | .toProtocolId id => ⟨0x3#4, assembleWord (identifierFields id)⟩
  | .toDriverId id => ⟨0x4#4, assembleWord (identifierFields id)⟩
  | .pfNewData id p => ⟨0x5#4, assembleWord (payloadFields id p)⟩
  | .pfNewRemote id n => ⟨0x6#4, assembleWord (lengthFields id n)⟩
  | .dfNewData id p => ⟨0x7#4, assembleWord (payloadFields id p)⟩
  | .dfNewRemote id n => ⟨0x8#4, assembleWord (lengthFields id n)⟩
  | .toProtocol f => ⟨0x9#4, assembleWord (driverFields f)⟩
  | .toDriver f => ⟨0xA#4, assembleWord (protocolFields f)⟩
  | .encodeLine f => ⟨0xB#4, assembleWord (protocolFields f)⟩

/-! ### A command as one number

The block stores no instruction (20_memory.md R38), so the spec numbers no instruction word beyond the
4 bits of OP. DESIGN CHOICE (log 14): OP in bits 3..0, bits 7..4 zero, OPD in bits 135..8. -/

/-- The command as a number. -/
def commandNumber (c : Command) : Nat := c.op.toNat + 256 * c.opd.toNat

/-- The command in a number's bits, whatever the other bits are. -/
def commandOfNumber (w : Nat) : Command := ⟨BitVec.ofNat 4 w, BitVec.ofNat 128 (w / 256)⟩

/-- The operation a number holds, rejected by name where it is no command or its OP is reserved. -/
def decodeNumber (w : Nat) : Except DecodeError Instr :=
  if commandNumber (commandOfNumber w) = w then decode (commandOfNumber w)
  else .error (.notACommand w)

/-- The operation the decoder reads from an opcode-table word of `nbits` bits; the bits above are 0. -/
def decodeTableWord (nbits w : Nat) : Option Instr :=
  match decodeNumber (w % 2 ^ nbits) with
  | .ok i => some i
  | .error _ => none

end Sys2Proof
end

