-- ==== Sys2Proof/Machine/State.lean ====
section
/-! DEFINITION. What the machine holds: the block's result registers, its only state (10_state.md R13 to R19),
and beside them the model's picture of the host: the interactions still to come and what the last read gave
back (60_exceptions.md R111; logs 1 and 3). Plain data throughout. -/

namespace Sys2Proof.Machine

/-- Why a step stops with a fault. The block itself has no fault (60_exceptions.md R105, R107). -/
inductive Fault where
  /-- Raised by the host's read of `LINE[i]` with `i` outside 0..26, an index that names no cell and that the
  host cannot present (20_memory.md R30). Safe: the model stops where the hardware has no such run (log 5). -/
  | noLineCell (i : Nat)
deriving DecidableEq, Repr

/-- Why a step has no meaning. -/
inductive Refusal where
  /-- Raised by an arm of exec whose operation has no meaning yet. Safe: nothing is claimed of it. No arm
  raises it: every operation has its meaning. -/
  | notModelled (mnemonic : String)
deriving DecidableEq, Repr

/-- The byte-indexed space LINE (20_memory.md R30) as cells (index, byte), indices rising, none equal to
`unlistedByte` (log 4). -/
abbrev Memory := List Host.Cell

/-- What a cell that is not listed reads as: its reset contents (10_state.md R24). -/
def unlistedByte : Byte := 0x00#8

/-- The canonical form from index `lo` up: rising indices of cells that exist, no unlisted value. -/
def Memory.wfFrom : Nat → Memory → Bool
  | _, [] => true
  | lo, (a, b) :: m =>
    lo ≤ a && a < Config.lineCap && b != unlistedByte && Memory.wfFrom (a + 1) m

/-- The canonical form of LINE (10_state.md R17: exactly the cells 0 to 26). -/
def Memory.wf (m : Memory) : Bool := Memory.wfFrom 0 m

/-- The result registers, the block's only state (10_state.md section 3). The codes are held as the bits the
host reads; codes that no operation writes (60_exceptions.md R102, 10_state.md R15) can be held but are ruled
out by the invariant (log 13). -/
structure Block where
  /-- RES_VALID (R13). -/
  resValid : BitVec 1
  /-- RES_CAUSE (R14). -/
  resCause : BitVec 4
  /-- RES_KIND (R15). -/
  resKind  : BitVec 3
  /-- RES_FRAME (R16). -/
  resFrame : FrameWord
  /-- LINE[0..26] (R17). -/
  line     : Memory
  /-- LINE_LEN (R18). -/
  lineLen  : BitVec 5
deriving DecidableEq, Repr

/-- The result registers at reset (10_state.md R24). -/
def Block.reset : Block :=
  { resValid := 0#1, resCause := 0#4, resKind := 0#3, resFrame := 0#128, line := [], lineLen := 0#5 }

/-- The two host contexts that share the block (60_exceptions.md R109). -/
inductive HostContext where
  | receive
  | transmit
deriving DecidableEq, Repr

/-- What the host can read, one register or one LINE cell per access (10_state.md R25, 20_memory.md R34). -/
inductive ReadPort where
  | resValid
  | resCause
  | resKind
  | resFrame
  | lineCell (i : Nat)
  | lineLen
deriving DecidableEq, Repr

/-- What a read gives back, each register at its own width (20_memory.md R34). -/
inductive ReadValue where
  | resValid (v : BitVec 1)
  | resCause (v : BitVec 4)
  | resKind (v : BitVec 3)
  | resFrame (v : FrameWord)
  | lineCell (i : Nat) (v : Byte)
  | lineLen (v : BitVec 5)
deriving DecidableEq, Repr

/-- The host's interactions with the block, row by row of the table of 60_exceptions.md R111. -/
inductive HostAction where
  /-- Issue an operation: OP and OPD, whole. -/
  | issue (c : Command)
  /-- Forward RES_FRAME unchanged as the OPD of the next operation and issue it (30_encoding.md R45; log 11). -/
  | forward (op : OpCode)
  /-- Read a result register or a LINE cell. -/
  | read (p : ReadPort)
  /-- Drop the frame after a failed conversion (60_exceptions.md R106): nothing reaches the block. -/
  | drop
  /-- The reset signal, between two operations (70_reset_and_hazards.md R120). -/
  | reset
deriving DecidableEq, Repr

/-- One host interaction and the context it comes from. -/
structure HostEvent where
  ctx : HostContext
  act : HostAction
deriving DecidableEq, Repr

/-- What the host's last read gave back, and to which context. -/
structure HostGot where
  ctx   : HostContext
  value : ReadValue
deriving DecidableEq, Repr

/-- The machine: the block, and the model's picture of the host. -/
structure State where
  /-- The block's result registers (10_state.md R19: there is no other architectural state). -/
  block   : Block
  /-- The model's own: the host's interactions still to come, oldest first (log 1). -/
  inputs  : List HostEvent
  /-- The model's own: what the last read gave back, if the host has read (log 3). -/
  hostGot : Option HostGot
deriving DecidableEq, Repr

/-- Right after reset (10_state.md R24, 70_reset_and_hazards.md R120). The host's side has no value in the
spec: nothing to come, nothing read (DESIGN CHOICE, logs 1 and 3). -/
def State.reset : State := { block := Block.reset, inputs := [], hostGot := none }

end Sys2Proof.Machine
end

