-- ==== Sys2Proof/Machine/Flags.lean ====
section
/-! DEFINITION. The status codes (60_exceptions.md R102, 10_state.md R15) and the range checks that decide
them: the identifier check of 40_identifier.md R60 and the length checks of 41_frame_construct.md. -/

namespace Sys2Proof.Machine

/-- The causes an absence can carry (60_exceptions.md R102). NONE is no cause of an absence, so it stands
apart as `causeNone`. -/
inductive Cause where
  /-- An identifier exceeds its tag's range. -/
  | idRange
  /-- A remote frame's length exceeds 8. -/
  | lengthRange
  /-- A data payload exceeds 8 bytes. -/
  | payloadCapacity
  /-- Named by the spec and never raised (43_line_encode.md R94). -/
  | renderFault
  /-- A reserved OP. -/
  | illegalOp
deriving DecidableEq, Repr

/-- The cause's code in RES_CAUSE (60_exceptions.md R102). -/
def Cause.code : Cause → BitVec 4
  | .idRange => 1#4
  | .lengthRange => 2#4
  | .payloadCapacity => 3#4
  | .renderFault => 4#4
  | .illegalOp => 5#4

/-- NONE in RES_CAUSE: the operation produced a result (60_exceptions.md R102). -/
def causeNone : BitVec 4 := 0#4

/-- What kind of frame word a result is (10_state.md R15). -/
inductive FrameResult where
  | identifier
  | driverFrame
  | protocolFrame
deriving DecidableEq, Repr

/-- The kind's code in RES_KIND (10_state.md R15). -/
def FrameResult.code : FrameResult → BitVec 3
  | .identifier => 1#3
  | .driverFrame => 2#3
  | .protocolFrame => 3#3

/-- NONE in RES_KIND: no result (10_state.md R15). -/
def kindNone : BitVec 3 := 0#3

/-- LINE in RES_KIND (10_state.md R15). -/
def kindLine : BitVec 3 := 4#3

/-- The largest value of an identifier with this tag (00_scope.md R2). -/
def idMax : IdTag → Nat
  | .standard => Config.stdIdMax
  | .extended => Config.extIdMax

/-- `id_ok`: an identifier is valid when its value does not exceed its tag's range (40_identifier.md R60). -/
def idOk (id : Identifier) : Bool := id.value.toNat ≤ idMax id.tag

/-- A length argument fits a frame (41_frame_construct.md R72, R76). -/
def lengthOk (n : BitVec 8) : Bool := n.toNat ≤ Config.maxDlc

/-- A payload of `n` bytes fits a frame (41_frame_construct.md R70, R74). -/
def payloadOk (n : BitVec 8) : Bool := n.toNat ≤ Config.payloadCap

end Sys2Proof.Machine
end

