-- ==== Sys2Proof/Machine/Operands.lean ====
section
/-! DEFINITION. The result formats (30_encoding.md R44): how an identifier, a DriverFrame and a ProtocolFrame
are written into RES_FRAME. The operand forms, the six readings of R43, stand in Decode.lean. -/

namespace Sys2Proof.Machine

/-- `id_word`: IDE and ID, every other bit 0 (30_encoding.md R44). -/
def idWord (id : Identifier) : FrameWord :=
  assembleWord { id := id.value, ide := bitOfTag id.tag }

/-- `driver_word`: IDE, ID, RTR, LEN = dlc, PP, PLEN = payload length (0 when absent), DATA[0..PLEN-1]
(30_encoding.md R44). -/
def driverWord (f : DriverFrame) : FrameWord :=
  match f.payload with
  | none =>
    assembleWord
      { id := f.id.value, ide := bitOfTag f.id.tag, rtr := bitOfKind f.kind, len := f.dlc, pp := 0#1 }
  | some p =>
    assembleWord
      { id := f.id.value, ide := bitOfTag f.id.tag, rtr := bitOfKind f.kind, len := f.dlc, pp := 1#1
        plen := p.len, data := packData (p.held.take p.len.toNat) }

/-- `protocol_word`: IDE, ID, RTR, LEN = len, DATA[0..len-1] for a data frame; PP = 0, PLEN = 0
(30_encoding.md R44). -/
def protocolWord (f : ProtocolFrame) : FrameWord :=
  assembleWord
    { id := f.id.value, ide := bitOfTag f.id.tag, rtr := bitOfKind f.kind, len := f.len
      data :=
        match f.kind with
        | .data => packData (f.payload.take f.len.toNat)
        | .remote => 0#64 }

end Sys2Proof.Machine
end

