-- ==== Sys2Proof/Machine/Ops.lean ====
section
/-! DEFINITION. The named operations over the state: the LINE space (20_memory.md R30), the result writes
(60_exceptions.md R100, R101), reset (70_reset_and_hazards.md R120) and the host's reads (10_state.md R25).

Taking a failure is the one shared operation `raiseAbsent`; the block has no trap, so nothing is saved, no
mode changes and there is no return from it (60_exceptions.md R105). -/

namespace Sys2Proof.Machine

/-! ### LINE as cells -/

/-- The byte of cell `a`. -/
def Memory.read : Memory → Nat → Byte
  | [], _ => unlistedByte
  | (k, b) :: m, a => if k = a then b else Memory.read m a

/-- Put a cell in front, or leave it out where its byte is what an unlisted cell reads as. -/
def Memory.cons (a : Nat) (b : Byte) (m : Memory) : Memory :=
  if b = unlistedByte then m else (a, b) :: m

/-- Write byte `b` to cell `a`, keeping the canonical form. -/
def Memory.write : Memory → Nat → Byte → Memory
  | [], a, b => Memory.cons a b []
  | (k, c) :: m, a, b =>
    if a < k then Memory.cons a b ((k, c) :: m)
    else if a = k then Memory.cons a b m
    else (k, c) :: Memory.write m a b

/-- The loop of 43_line_encode.md R91: cell `i`, for i = 0..26, gets `bs[i]`, or 0x00 past the end. -/
def writeCells (bs : List Byte) (m : Memory) : Memory :=
  (List.range Config.lineCap).foldl (fun m i => m.write i (bs.getD i unlistedByte)) m

/-- LINE after a write of all its cells at once (20_memory.md R35). Every cell is overwritten, so nothing of
the old contents is left (70_reset_and_hazards.md R122); `Laws.writeCells_eq_lineImage` says that the loop
over the old contents gives the same. -/
def lineImage (bs : List Byte) : Memory := writeCells bs []

/-- LINE with every cell 0x00 (60_exceptions.md R100, R101): no cell is listed. It is what the loop that
writes 0x00 to every cell leaves (`Laws.writeCells_zero`). -/
def lineCleared : Memory := []

/-! ### Result writes -/

/-- The registers an absence leaves (60_exceptions.md R100). -/
def absentBlock (c : Cause) : Block :=
  { resValid := 0#1, resCause := c.code, resKind := kindNone, resFrame := 0#128
    line := lineCleared, lineLen := 0#5 }

/-- The registers a result of a frame kind leaves (60_exceptions.md R101). -/
def frameBlock (k : FrameResult) (w : FrameWord) : Block :=
  { resValid := 1#1, resCause := causeNone, resKind := k.code, resFrame := w
    line := lineCleared, lineLen := 0#5 }

/-- The registers a line leaves (43_line_encode.md R91, 10_state.md R18). -/
def lineBlock (bs : List Byte) : Block :=
  { resValid := 1#1, resCause := causeNone, resKind := kindLine, resFrame := 0#128
    line := lineImage bs, lineLen := BitVec.ofNat 5 bs.length }

/-- `raise Absent(c)` (60_exceptions.md R100). -/
def raiseAbsent (c : Cause) (s : State) : State := { s with block := absentBlock c }

/-- `complete(kind, w)` (60_exceptions.md R101). -/
def complete (k : FrameResult) (w : FrameWord) (s : State) : State := { s with block := frameBlock k w }

/-- The success write of ENCODE_LINE (43_line_encode.md R91, 60_exceptions.md R101). -/
def completeLine (bs : List Byte) (s : State) : State := { s with block := lineBlock bs }

/-- End an operation: `Some(x)` by the given success write, `None(c)` by `raise Absent(c)`; both are normal
completions (60_exceptions.md R105). -/
def conclude {α : Type} (r : Except Cause α) (success : α → State → State) (s : State) :
    Host.Outcome State Fault Refusal :=
  match r with
  | .ok x => .next (success x s)
  | .error c => .next (raiseAbsent c s)

/-! ### Reset and reads -/

/-- The reset signal: every result register at its reset value (70_reset_and_hazards.md R120). The host's
side is not the block's and stays. -/
def resetBlock (s : State) : State := { s with block := Block.reset }

/-- What reading a port gives: the register's value, or the fault of an index that names no cell
(10_state.md R25; 20_memory.md R30, R34). -/
def readPort (b : Block) : ReadPort → Except Fault ReadValue
  | .resValid => .ok (.resValid b.resValid)
  | .resCause => .ok (.resCause b.resCause)
  | .resKind => .ok (.resKind b.resKind)
  | .resFrame => .ok (.resFrame b.resFrame)
  | .lineCell i =>
    if i < Config.lineCap then .ok (.lineCell i (b.line.read i)) else .error (.noLineCell i)
  | .lineLen => .ok (.lineLen b.lineLen)

/-- The host's read: the value goes to the host and nothing of the block changes (20_memory.md R36). -/
def hostRead (ctx : HostContext) (p : ReadPort) (s : State) : Host.Outcome State Fault Refusal :=
  match readPort s.block p with
  | .ok v => .next { s with hostGot := some ⟨ctx, v⟩ }
  | .error f => .fault f

end Sys2Proof.Machine
end

