-- ==== Sys2Proof/Machine/Identifier.lean ====
section
/-! DEFINITION. The identifier operations (40_identifier.md R61 to R64). -/

namespace Sys2Proof.Machine

/-- Construct an identifier of a tag from a raw value; out of range fails, never truncates
(40_identifier.md R60, R61, R62). -/
def newIdentifier (tag : IdTag) (v : BitVec 32) : Except Cause Identifier :=
  if idOk ⟨tag, v⟩ then .ok ⟨tag, v⟩ else .error .idRange

/-- `to_protocol_id`: tag and value unchanged (40_identifier.md R63). -/
def toProtocolId (id : Identifier) : Except Cause Identifier :=
  if idOk id then .ok id else .error .idRange

/-- `to_driver_id` (40_identifier.md R64). -/
def toDriverId (id : Identifier) : Except Cause Identifier :=
  if idOk id then .ok id else .error .idRange

/-- The success write of the identifier operations. -/
def completeIdentifier (id : Identifier) (s : State) : State := complete .identifier (idWord id) s

/-- ID_STD (40_identifier.md R61). -/
def execIdStd (v : BitVec 32) (s : State) : Host.Outcome State Fault Refusal :=
  conclude (newIdentifier .standard v) completeIdentifier s

/-- ID_EXT (40_identifier.md R62). -/
def execIdExt (v : BitVec 32) (s : State) : Host.Outcome State Fault Refusal :=
  conclude (newIdentifier .extended v) completeIdentifier s

/-- TO_PROTOCOL_ID (40_identifier.md R63). -/
def execToProtocolId (id : Identifier) (s : State) : Host.Outcome State Fault Refusal :=
  conclude (toProtocolId id) completeIdentifier s

/-- TO_DRIVER_ID (40_identifier.md R64). -/
def execToDriverId (id : Identifier) (s : State) : Host.Outcome State Fault Refusal :=
  conclude (toDriverId id) completeIdentifier s

end Sys2Proof.Machine
end

