-- ==== Sys2Proof/Machine/FrameConstruct.lean ====
section
/-! DEFINITION. The frame constructors and their operations (41_frame_construct.md R70 to R77). In each the
identifier check comes first (60_exceptions.md R104). -/

namespace Sys2Proof.Machine

/-- `pf_data`: the frame's length is the payload's length (41_frame_construct.md R70). -/
def pfData (id : Identifier) (p : Payload) : Except Cause ProtocolFrame :=
  if !idOk id then .error .idRange
  else if !payloadOk p.len then .error .payloadCapacity
  else .ok { id := id, kind := .data, len := p.len, payload := p.held.take p.len.toNat }

/-- `pf_remote` (41_frame_construct.md R72). -/
def pfRemote (id : Identifier) (n : BitVec 8) : Except Cause ProtocolFrame :=
  if !idOk id then .error .idRange
  else if !lengthOk n then .error .lengthRange
  else .ok { id := id, kind := .remote, len := n, payload := [] }

/-- `df_data`: dlc = n, and the payload is present, possibly empty (41_frame_construct.md R74). -/
def dfData (id : Identifier) (p : Payload) : Except Cause DriverFrame :=
  if !idOk id then .error .idRange
  else if !payloadOk p.len then .error .payloadCapacity
  else .ok { id := id, kind := .data, dlc := p.len, payload := some ⟨p.len, p.held.take p.len.toNat⟩ }

/-- `df_remote` (41_frame_construct.md R76). -/
def dfRemote (id : Identifier) (n : BitVec 8) : Except Cause DriverFrame :=
  if !idOk id then .error .idRange
  else if !lengthOk n then .error .lengthRange
  else .ok { id := id, kind := .remote, dlc := n, payload := none }

/-- The success write of the operations that give a ProtocolFrame. -/
def completeProtocol (f : ProtocolFrame) (s : State) : State :=
  complete .protocolFrame (protocolWord f) s

/-- The success write of the operations that give a DriverFrame. -/
def completeDriver (f : DriverFrame) (s : State) : State := complete .driverFrame (driverWord f) s

/-- PF_NEW_DATA (41_frame_construct.md R71). -/
def execPfNewData (id : Identifier) (p : Payload) (s : State) : Host.Outcome State Fault Refusal :=
  conclude (pfData id p) completeProtocol s

/-- PF_NEW_REMOTE (41_frame_construct.md R73). -/
def execPfNewRemote (id : Identifier) (n : BitVec 8) (s : State) : Host.Outcome State Fault Refusal :=
  conclude (pfRemote id n) completeProtocol s

/-- DF_NEW_DATA (41_frame_construct.md R75). -/
def execDfNewData (id : Identifier) (p : Payload) (s : State) : Host.Outcome State Fault Refusal :=
  conclude (dfData id p) completeDriver s

/-- DF_NEW_REMOTE (41_frame_construct.md R77). -/
def execDfNewRemote (id : Identifier) (n : BitVec 8) (s : State) : Host.Outcome State Fault Refusal :=
  conclude (dfRemote id n) completeDriver s

end Sys2Proof.Machine
end

