-- ==== Sys2Proof/Machine/LineEncode.lean ====
section
/-! DEFINITION. The line encoder (43_line_encode.md R90, R91) over the grammar of 30_encoding.md R46 to R50. The
marker letters and the letter case of the hex digits are parameters with a default
(93_implementation_defined.md I1, I3; logs 6 and 7): the encoder takes them as an argument, and ENCODE_LINE
runs it on the default. -/

namespace Sys2Proof.Machine

/-- The two parameters of a line (93_implementation_defined.md I1, I3). -/
structure LineConfig where
  /-- `marker(ide, rtr)` (30_encoding.md R48). -/
  marker   : IdTag → FrameKind → Byte
  /-- Hex digits A..F in upper case (30_encoding.md R47). -/
  upperHex : Bool

/-- The marker letters `t T r R` (30_encoding.md R48, which takes them from general knowledge: PRESUMED,
log 6). -/
def slcanMarker : IdTag → FrameKind → Byte
  | .standard, .data => 0x74#8
  | .extended, .data => 0x54#8
  | .standard, .remote => 0x72#8
  | .extended, .remote => 0x52#8

/-- The default of both parameters (30_encoding.md R47, R48). -/
def defaultLine : LineConfig := { marker := slcanMarker, upperHex := true }

/-- `hexdigit(v)` (30_encoding.md R47): 0x30 + v up to 9, then the letters from 'A' (0x41) in upper case or
'a' (0x61) in lower. -/
def hexDigit (cfg : LineConfig) (v : BitVec 4) : Byte :=
  if v ≤ 9#4 then 0x30#8 + v.setWidth 8
  else (if cfg.upperHex then 0x41#8 else 0x61#8) + (v.setWidth 8 - 10#8)

/-- `D`, the number of identifier digits (30_encoding.md R46, R49). -/
def idDigitCount : IdTag → Nat
  | .standard => Config.stdIdDigits
  | .extended => Config.extIdDigits

/-- The `D` digits of an identifier, most significant first: digit k is `v[4(D-1-k)+3 : 4(D-1-k)]`
(30_encoding.md R49). -/
def idDigits (cfg : LineConfig) (id : Identifier) : List Byte :=
  (List.range (idDigitCount id.tag)).map fun k =>
    hexDigit cfg (id.value.extractLsb' (4 * (idDigitCount id.tag - 1 - k)) 4)

/-- The two digits of a payload byte, most significant nibble first (20_memory.md R32). -/
def byteDigits (cfg : LineConfig) (b : Byte) : List Byte :=
  [hexDigit cfg (b.extractLsb' 4 4), hexDigit cfg (b.extractLsb' 0 4)]

/-- The payload digits: for a data frame the bytes 0 to len-1 in order, for a remote frame none
(30_encoding.md R49). -/
def payloadDigits (cfg : LineConfig) (f : ProtocolFrame) : List Byte :=
  match f.kind with
  | .data => (f.payload.take f.len.toNat).flatMap (byteDigits cfg)
  | .remote => []

/-- The line of a frame: marker, identifier digits, one length digit, payload digits, terminator
(43_line_encode.md R90). -/
def renderLine (cfg : LineConfig) (f : ProtocolFrame) : List Byte :=
  cfg.marker f.id.tag f.kind :: idDigits cfg f.id ++ [hexDigit cfg (f.len.extractLsb' 0 4)]
    ++ payloadDigits cfg f ++ [Config.terminator]

/-- The cause of a length above 8 in a protocol operand (43_line_encode.md R90). -/
def lengthCause : FrameKind → Cause
  | .remote => .lengthRange
  | .data => .payloadCapacity

/-- `encode_line` (43_line_encode.md R90). -/
def encodeLine (cfg : LineConfig) (f : ProtocolFrame) : Except Cause (List Byte) :=
  if !idOk f.id then .error .idRange
  else if !lengthOk f.len then .error (lengthCause f.kind)
  else .ok (renderLine cfg f)

/-- ENCODE_LINE (43_line_encode.md R91). -/
def execEncodeLine (f : ProtocolFrame) (s : State) : Host.Outcome State Fault Refusal :=
  conclude (encodeLine defaultLine f) completeLine s

end Sys2Proof.Machine
end

