-- ==== Sys2Proof/Machine/Translate.lean ====
section
/-! DEFINITION. The frame translator (42_translate.md R80 to R83): identifier conversion, then routing by frame
kind and payload presence, then the target's own constructor. -/

namespace Sys2Proof.Machine

/-- The payload of no bytes (42_translate.md R80, a data frame with no payload object). -/
def emptyPayload : Payload := ⟨0#8, []⟩

/-- `to_protocol`, after the identifier conversion (42_translate.md R80): a remote frame by its length code
alone, a data frame by its payload object alone, so the DLC of a data frame and the payload of a remote frame
are not read. -/
def routeToProtocol (id : Identifier) (f : DriverFrame) : Except Cause ProtocolFrame :=
  match f.kind with
  | .remote => pfRemote id f.dlc
  | .data =>
    match f.payload with
    | some p => pfData id p
    | none => pfData id emptyPayload

/-- `to_protocol` (42_translate.md R80). -/
def toProtocol (f : DriverFrame) : Except Cause ProtocolFrame :=
  match toProtocolId f.id with
  | .error c => .error c
  | .ok id => routeToProtocol id f

/-- `trunc_8`: the cast to the driver's length-code width, 8 bits, which changes no value
(42_translate.md R82; 92_eei_decisions.md D6). -/
def castToLengthCode (n : BitVec 8) : BitVec 8 := n.setWidth 8

/-- `to_driver`, after the identifier conversion (42_translate.md R82). -/
def routeToDriver (id : Identifier) (f : ProtocolFrame) : Except Cause DriverFrame :=
  match f.kind with
  | .remote => dfRemote id (castToLengthCode f.len)
  | .data => dfData id ⟨f.len, f.payload⟩

/-- `to_driver` (42_translate.md R82). -/
def toDriver (f : ProtocolFrame) : Except Cause DriverFrame :=
  match toDriverId f.id with
  | .error c => .error c
  | .ok id => routeToDriver id f

/-- TO_PROTOCOL (42_translate.md R81). -/
def execToProtocol (f : DriverFrame) (s : State) : Host.Outcome State Fault Refusal :=
  conclude (toProtocol f) completeProtocol s

/-- TO_DRIVER (42_translate.md R83). -/
def execToDriver (f : ProtocolFrame) (s : State) : Host.Outcome State Fault Refusal :=
  conclude (toDriver f) completeDriver s

end Sys2Proof.Machine
end

