-- ==== Sys2Proof/Machine/Dispatch.lean ====
section
/-! DEFINITION. The operations' meanings, one arm per row of spec/opcode_table.json (30_encoding.md R40). -/

namespace Sys2Proof.Machine

def exec (i : Instr) (s : State) : Host.Outcome State Fault Refusal :=
  match i with
  | .idStd v => Sys2Proof.Machine.execIdStd v s
  | .idExt v => Sys2Proof.Machine.execIdExt v s
  | .toProtocolId id => Sys2Proof.Machine.execToProtocolId id s
  | .toDriverId id => Sys2Proof.Machine.execToDriverId id s
  | .pfNewData id p => Sys2Proof.Machine.execPfNewData id p s
  | .pfNewRemote id n => Sys2Proof.Machine.execPfNewRemote id n s
  | .dfNewData id p => Sys2Proof.Machine.execDfNewData id p s
  | .dfNewRemote id n => Sys2Proof.Machine.execDfNewRemote id n s
  | .toProtocol f => Sys2Proof.Machine.execToProtocol f s
  | .toDriver f => Sys2Proof.Machine.execToDriver f s
  | .encodeLine f => Sys2Proof.Machine.execEncodeLine f s

end Sys2Proof.Machine
end

