-- ==== Sys2Proof/Machine/HostInterface.lean ====
section
/-! DEFINITION. What each host interaction does (the table of 60_exceptions.md R111): issue, read result,
forward, drop, reset. The block's answer to an interaction never depends on the context it comes from
(60_exceptions.md R110). -/

namespace Sys2Proof.Machine

/-- Issue an operation: one atomic step of the block (20_memory.md R35). A reserved OP reads no operand and
ends in absence with ILLEGAL_OP (60_exceptions.md R103). -/
def issue (c : Command) (s : State) : Host.Outcome State Fault Refusal :=
  match decode c with
  | .ok i => exec i s
  | .error _ => .next (raiseAbsent .illegalOp s)

/-- The command the host issues when it forwards: its OP with the present RES_FRAME as OPD
(30_encoding.md R45; 70_reset_and_hazards.md R124). -/
def forwarded (op : OpCode) (b : Block) : Command := ⟨op, b.resFrame⟩

/-- One host interaction. -/
def serve (e : HostEvent) (s : State) : Host.Outcome State Fault Refusal :=
  match e.act with
  | .issue c => issue c s
  | .forward op => issue (forwarded op s.block) s
  | .read p => hostRead e.ctx p s
  | .drop => .next s
  | .reset => .next (resetBlock s)

end Sys2Proof.Machine
end

