-- ==== Sys2Proof/Machine/Step.lean ====
section
/-! DEFINITION. The step: the block never starts a step by itself (10_state.md R10), so a step takes the host's
next interaction and serves it. With none to come nothing happens and the result registers hold their values
(10_state.md R13; log 2). -/

namespace Sys2Proof.Machine

/-- One step of the machine. -/
def step (s : State) : Host.Outcome State Fault Refusal :=
  match s.inputs with
  | [] => .next s
  | e :: rest => serve e { s with inputs := rest }

/-- The state in which the host's very next interaction is to issue the command in `w`'s bits (the bits
above `nbits` zero); the interactions that were to come follow it (log 1). -/
def State.withFetchWord (s : State) (nbits w : Nat) : State :=
  { s with inputs := ⟨.receive, .issue (commandOfNumber (w % 2 ^ nbits))⟩ :: s.inputs }

end Sys2Proof.Machine
end

