-- ==== Sys2Proof/Machine/HostText.lean ====
section
/-! DEFINITION. The text notation of frame words and host programs (30_encoding.md R41, R53;
92_eei_decisions.md D36): a line of a host program as a mnemonic and a field list, the command it stands for,
and the two written forms of it. Notation only: no step depends on it. -/

namespace Sys2Proof.Machine

/-- The mnemonic of each assigned OP value (30_encoding.md R40); a reserved one has none. -/
def mnemonicOf (op : OpCode) : Option String :=
  match op with
  | 0x1#4 => some "ID_STD"
  | 0x2#4 => some "ID_EXT"
  | 0x3#4 => some "TO_PROTOCOL_ID"
  | 0x4#4 => some "TO_DRIVER_ID"
  | 0x5#4 => some "PF_NEW_DATA"
  | 0x6#4 => some "PF_NEW_REMOTE"
  | 0x7#4 => some "DF_NEW_DATA"
  | 0x8#4 => some "DF_NEW_REMOTE"
  | 0x9#4 => some "TO_PROTOCOL"
  | 0xA#4 => some "TO_DRIVER"
  | 0xB#4 => some "ENCODE_LINE"
  | _ => none

/-- One line of a host program: an operation and its field list, omitted fields 0 (30_encoding.md R53). -/
structure HostLine where
  op     : OpCode
  fields : WordFields
deriving DecidableEq, Repr

/-- The command a line stands for (30_encoding.md R53). -/
def HostLine.command (l : HostLine) : Command := ⟨l.op, assembleWord l.fields⟩

/-- The character of a hex digit, upper case (30_encoding.md R41). -/
def hexChar (v : Nat) : Char :=
  if v % 16 ≤ 9 then Char.ofNat (0x30 + v % 16) else Char.ofNat (0x41 + (v % 16 - 10))

/-- `n` hex digits of a number, most significant first. -/
def hexText : Nat → Nat → List Char
  | 0, _ => []
  | n + 1, v => hexText n (v / 16) ++ [hexChar v]

/-- A frame word as two 16-digit halves, the payload half left (30_encoding.md R41). -/
def wordText (w : FrameWord) : List Char :=
  hexText 16 (w.toNat / 2 ^ 64) ++ ['_'] ++ hexText 16 w.toNat

/-- The binary form of a line: `OP=<hex> OPD=<payload half>_<control half>` (30_encoding.md R53). -/
def commandText (c : Command) : List Char :=
  "OP=".toList ++ hexText 1 c.op.toNat ++ " OPD=".toList ++ wordText c.opd

/-- The field list of a line, every field written out, DATA[0] first (30_encoding.md R53). -/
def fieldsText (f : WordFields) : List Char :=
  [Char.ofNat 0x7B] ++ "ide=".toList ++ Nat.toDigits 10 f.ide.toNat
    ++ ", id=0x".toList ++ hexText 8 f.id.toNat
    ++ ", rtr=".toList ++ Nat.toDigits 10 f.rtr.toNat
    ++ ", pp=".toList ++ Nat.toDigits 10 f.pp.toNat
    ++ ", len=".toList ++ Nat.toDigits 10 f.len.toNat
    ++ ", plen=".toList ++ Nat.toDigits 10 f.plen.toNat
    ++ ", data=[".toList
    ++ List.intercalate [' '] ((List.range 8).map fun i => hexText 2 (f.data.extractLsb' (8 * i) 8).toNat)
    ++ [']', Char.ofNat 0x7D]

/-- The text of a line, where its OP is assigned: a mnemonic and a field list (30_encoding.md R53). -/
def lineText (l : HostLine) : Option (List Char) :=
  (mnemonicOf l.op).map fun m => m.toList ++ [' '] ++ fieldsText l.fields

end Sys2Proof.Machine
end

