-- ==== Sys2Proof/Safety.lean ====
section
/-! DEFINITION. The terms claims are made in: valid values (10_state.md R20 to R22), what a result and an absence
leave, what a frame word and a line look like bit by bit, the machine's invariant, and the host's duties
(60_exceptions.md R106, R109), which are premises of claims and never enforced by the block. -/

namespace Sys2Proof.Safety

open Sys2Proof.Machine

/-! ### Valid values -/

/-- A valid identifier (10_state.md R20, 40_identifier.md R60). -/
def ValidIdentifier (id : Identifier) : Prop :=
  match id.tag with
  | .standard => id.value.toNat ≤ 0x7FF
  | .extended => id.value.toNat ≤ 0x1FFFFFFF

/-- A valid ProtocolFrame (10_state.md R22). -/
def ValidProtocolFrame (f : ProtocolFrame) : Prop :=
  ValidIdentifier f.id ∧ f.len.toNat ≤ 8 ∧
    match f.kind with
    | .data => f.payload.length = f.len.toNat
    | .remote => f.payload = []

/-- A DriverFrame that meets the invariants of 10_state.md R21: a data frame's payload may be absent, or
shorter or longer than its DLC, but holds at most 8 bytes. -/
def ValidDriverFrame (f : DriverFrame) : Prop :=
  ValidIdentifier f.id ∧ f.dlc.toNat ≤ 8 ∧
    match f.kind, f.payload with
    | _, none => True
    | .data, some p => p.len.toNat ≤ 8 ∧ p.held.length = p.len.toNat
    | .remote, some _ => False

/-! ### Frame words, bit by bit (30_encoding.md R42) -/

/-- The frame word has these fields, reserved bits 0, and payload bytes `data 0` to `data 7`. -/
def WordIs (w : FrameWord) (id : BitVec 32) (ide rtr pp : BitVec 1) (len plen : BitVec 8)
    (data : Nat → Byte) : Prop :=
  w.extractLsb' 0 32 = id ∧ w.extractLsb' 32 1 = ide ∧ w.extractLsb' 33 1 = rtr ∧
    w.extractLsb' 34 1 = pp ∧ w.extractLsb' 35 5 = 0#5 ∧ w.extractLsb' 40 8 = len ∧
    w.extractLsb' 48 8 = plen ∧ w.extractLsb' 56 8 = 0#8 ∧
    ∀ i < 8, w.extractLsb' (64 + 8 * i) 8 = data i

/-- The IDE bit of a tag: 0 Standard, 1 Extended. -/
def ideBit : IdTag → BitVec 1
  | .standard => 0#1
  | .extended => 1#1

/-- The RTR bit of a kind: 0 data, 1 remote. -/
def rtrBit : FrameKind → BitVec 1
  | .data => 0#1
  | .remote => 1#1

/-- An operand identifier is the IDE and ID fields of the frame word. -/
def IdentifierOf (w : FrameWord) (id : Identifier) : Prop :=
  ideBit id.tag = w.extractLsb' 32 1 ∧ id.value = w.extractLsb' 0 32

/-- An operand's bytes are the first ones of the frame word's payload half. -/
def BytesOf (w : FrameWord) (bs : List Byte) : Prop :=
  ∀ i < bs.length, bs[i]? = some (w.extractLsb' (64 + 8 * i) 8)

/-- An operand payload is PLEN bytes, held up to the capacity. -/
def PayloadOf (w : FrameWord) (p : Payload) : Prop :=
  p.len = w.extractLsb' 48 8 ∧ p.held.length = min p.len.toNat 8 ∧ BytesOf w p.held

/-- Byte `i` of a list of payload bytes, 0 past its end. -/
def byteAt (bs : List Byte) (i : Nat) : Byte := bs.getD i 0#8

/-! ### What an operation leaves -/

/-- Every LINE cell reads 0x00 and LINE_LEN is 0. -/
def LineCleared (b : Block) : Prop :=
  (∀ i < 27, b.line.read i = 0x00#8) ∧ b.lineLen = 0#5

/-- A result of a frame kind: the result registers of 60_exceptions.md R101. -/
def HoldsFrame (b : Block) (kind : BitVec 3) (w : FrameWord) : Prop :=
  b.resValid = 1#1 ∧ b.resCause = 0#4 ∧ b.resKind = kind ∧ b.resFrame = w ∧ LineCleared b

/-- An absence with a cause: the result registers of 60_exceptions.md R100. -/
def HoldsAbsence (b : Block) (cause : BitVec 4) : Prop :=
  b.resValid = 0#1 ∧ b.resCause = cause ∧ b.resKind = 0#3 ∧ b.resFrame = 0#128 ∧ LineCleared b

/-- A line result: LINE holds `bs` from cell 0 and 0x00 after it (43_line_encode.md R91). -/
def HoldsLine (b : Block) (bs : List Byte) : Prop :=
  b.resValid = 1#1 ∧ b.resCause = 0#4 ∧ b.resKind = 4#3 ∧ b.resFrame = 0#128 ∧
    b.lineLen.toNat = bs.length ∧ ∀ i < 27, b.line.read i = bs.getD i 0x00#8

/-- The host's side of the state is as before: no operation touches it. -/
def HostSideKept (s t : State) : Prop := t.inputs = s.inputs ∧ t.hostGot = s.hostGot

/-! ### The invariant (10_state.md R13 to R18, R23; 93_implementation_defined.md I14) -/

/-- A byte of a line before its terminator: a marker letter or an upper-case hex digit
(30_encoding.md R47, R48). -/
def lineByte (b : Byte) : Bool :=
  [0x74#8, 0x54#8, 0x72#8, 0x52#8].contains b || (0x30#8 ≤ b && b ≤ 0x39#8) || (0x41#8 ≤ b && b ≤ 0x46#8)

/-- A frame word in the identifier result format with a valid identifier (10_state.md R15, R16). -/
def CanonicalIdentifier (w : FrameWord) : Prop :=
  ∃ id, ValidIdentifier id ∧ WordIs w id.value (ideBit id.tag) 0#1 0#1 0#8 0#8 fun _ => 0#8

/-- A frame word in the protocol result format of a valid ProtocolFrame (10_state.md R15, R16, R22). -/
def CanonicalProtocol (w : FrameWord) : Prop :=
  ∃ f, ValidProtocolFrame f ∧
    WordIs w f.id.value (ideBit f.id.tag) (rtrBit f.kind) 0#1 f.len 0#8 (byteAt f.payload)

/-- A frame word in the driver result format as the block's operations write it: a remote frame without
payload, or a data frame whose payload is present and as long as its DLC (41_frame_construct.md R74, R76). -/
def CanonicalDriver (w : FrameWord) : Prop :=
  ∃ f, ValidProtocolFrame f ∧
    match f.kind with
    | .data => WordIs w f.id.value (ideBit f.id.tag) 0#1 1#1 f.len f.len (byteAt f.payload)
    | .remote => WordIs w f.id.value (ideBit f.id.tag) 1#1 0#1 f.len 0#8 fun _ => 0#8

/-- The registers hold no result: at reset, or after an absence with a cause that is ever raised. -/
def NoResult (b : Block) : Prop :=
  ∃ cause ∈ [0#4, 1#4, 2#4, 3#4, 5#4], HoldsAbsence b cause

/-- The registers hold a frame word of the kind RES_KIND says. -/
def FrameResultHeld (b : Block) : Prop :=
  (HoldsFrame b 1#3 b.resFrame ∧ CanonicalIdentifier b.resFrame) ∨
    (HoldsFrame b 2#3 b.resFrame ∧ CanonicalDriver b.resFrame) ∨
    (HoldsFrame b 3#3 b.resFrame ∧ CanonicalProtocol b.resFrame)

/-- The registers hold a line: 6 to 27 bytes, the last 0x0D, every other a marker or digit byte
(10_state.md R18, R23; 43_line_encode.md R92). -/
def LineResultHeld (b : Block) : Prop :=
  ∃ bs, HoldsLine b bs ∧ 6 ≤ bs.length ∧ bs.length ≤ 27 ∧ bs.getLast? = some 0x0D#8 ∧
    ∀ c ∈ bs.dropLast, lineByte c = true

/-- The invariant: LINE is canonical and the registers hold nothing, a frame or a line. -/
def Invariant (s : State) : Prop :=
  s.block.line.wf = true ∧ (NoResult s.block ∨ FrameResultHeld s.block ∨ LineResultHeld s.block)

/-! ### Lines -/

/-- The constraints the source puts on the marker letters: lower case for a Standard identifier, upper case
for an Extended one, four distinct letters (93_implementation_defined.md I1). -/
def MarkersOk (cfg : LineConfig) : Prop :=
  (∀ k, 0x61#8 ≤ cfg.marker .standard k ∧ cfg.marker .standard k ≤ 0x7A#8) ∧
    (∀ k, 0x41#8 ≤ cfg.marker .extended k ∧ cfg.marker .extended k ≤ 0x5A#8) ∧
    ∀ t, cfg.marker t .data ≠ cfg.marker t .remote

/-- `D`, the number of identifier digits (30_encoding.md R49). -/
def digitsOf : IdTag → Nat
  | .standard => 3
  | .extended => 8

/-- `line_len(ide, rtr, n)` (30_encoding.md R50). -/
def lineLength (tag : IdTag) (kind : FrameKind) (n : Nat) : Nat :=
  digitsOf tag + 3 + match kind with
    | .data => 2 * n
    | .remote => 0

/-- The length of a line as a reader tells it from its first bytes: the marker gives the tag and the kind, the
digit after the identifier gives n (30_encoding.md R51). The block has no such reader; this states what the
encoding makes possible. -/
def lengthFromFirstBytes (cell : Nat → Byte) : Nat :=
  let tag : IdTag := if cell 0 = 0x74#8 ∨ cell 0 = 0x72#8 then .standard else .extended
  let kind : FrameKind := if cell 0 = 0x74#8 ∨ cell 0 = 0x54#8 then .data else .remote
  lineLength tag kind ((cell (digitsOf tag + 1)).toNat - 0x30)

/-! ### The host's duties -/

/-- The contexts whose last operation's result is overwritten once `ctx` issues: the owner of the present result
and those overwritten before, but not `ctx` itself. -/
def overwritten (owner : Option HostContext) (lost : List HostContext) (ctx : HostContext) : List HostContext :=
  (owner.toList ++ lost).filter fun c => c != ctx

/-- Serialization (60_exceptions.md R109): between a context's issue and its uses of that operation's result
(reads and forwarding) no other context issues. `owner` is the context of the last operation, `lost` the contexts
whose own last result another context's issue has overwritten: these may not read or forward. -/
def serialized : Option HostContext → List HostContext → List HostEvent → Bool
  | _, _, [] => true
  | owner, lost, e :: es =>
    match e.act with
    | .issue _ => serialized (some e.ctx) (overwritten owner lost e.ctx) es
    | .forward _ => !lost.contains e.ctx && serialized (some e.ctx) (overwritten owner lost e.ctx) es
    | .read _ => !lost.contains e.ctx && serialized owner lost es
    | .drop => serialized owner lost es
    | .reset => serialized none [] es

/-- The duty of 60_exceptions.md R106 at the present state: no forwarding of an absence. -/
def dropsAbsences (s : State) : Prop :=
  s.block.resValid = 0#1 → ∀ e rest, s.inputs = e :: rest → ∀ op, e.act ≠ .forward op

/-- The interaction names only LINE cells that exist; the host cannot present another (20_memory.md R30). -/
def presentable (e : HostEvent) : Bool :=
  match e.act with
  | .read (.lineCell i) => i < 27
  | _ => true

/-- The interaction starts no operation and no reset, so the result registers hold (10_state.md R13). -/
def keepsResults (e : HostEvent) : Bool :=
  match e.act with
  | .read _ => true
  | .drop => true
  | _ => false

end Sys2Proof.Safety
end

