-- ==== Sys2Proof/Certificates/Slice0/Obligations.lean ====
section
/-! DEFINITION. The statements for the provers, from the spec's numbered rules. Frame words and lines are stated
bit by bit and cell by cell (Safety.WordIs, HoldsLine), not through the model's own assembler or renderer. -/

open Sys2Proof Sys2Proof.Machine Sys2Proof.Safety

/-! ### Reset, the step and the decoder -/

/-- 10_state.md R24: the reset value of every result register, cell by cell for LINE. -/
def Obligations.ResetValues : Prop :=
  State.reset.block.resValid = 0#1 ∧ State.reset.block.resCause = 0#4 ∧
    State.reset.block.resKind = 0#3 ∧ State.reset.block.resFrame = 0#128 ∧
    (∀ i < 27, State.reset.block.line.read i = 0x00#8) ∧ State.reset.block.lineLen = 0#5

/-- 70_reset_and_hazards.md R120, at the step: when the host's next interaction is reset, from ANY state the next
state has every result register at its reset value, and the host's side is as it was. -/
def Obligations.ResetRestoresEveryRegister : Prop :=
  ∀ (s : State) (ctx : HostContext) (rest : List HostEvent), s.inputs = ⟨ctx, .reset⟩ :: rest →
    ∃ t, step s = .next t ∧ HoldsAbsence t.block 0#4 ∧ t.block = State.reset.block ∧
      t.inputs = rest ∧ t.hostGot = s.hostGot

/-- A step runs the decoded operation: issuing a command that decodes to `i` is exec of `i` on the state from
which the interaction has been taken, forwarding is the same with RES_FRAME as the operand, and issuing or
forwarding a command that decodes to nothing takes the absence ILLEGAL_OP. The input list and the forwarding action are the model's own
form of the host (logs 1 and 11). -/
def Obligations.StepRunsDecodedOperation : Prop :=
  (∀ (s : State) (ctx : HostContext) (c : Command) (rest : List HostEvent) (i : Instr),
    s.inputs = ⟨ctx, .issue c⟩ :: rest → decode c = .ok i →
      step s = exec i { s with inputs := rest }) ∧
  (∀ (s : State) (ctx : HostContext) (op : OpCode) (rest : List HostEvent) (i : Instr),
    s.inputs = ⟨ctx, .forward op⟩ :: rest → decode ⟨op, s.block.resFrame⟩ = .ok i →
      step s = exec i { s with inputs := rest }) ∧
  (∀ (s : State) (ctx : HostContext) (c : Command) (rest : List HostEvent) (e : DecodeError),
    s.inputs = ⟨ctx, .issue c⟩ :: rest → decode c = .error e →
      step s = .next (raiseAbsent .illegalOp { s with inputs := rest })) ∧
  ∀ (s : State) (ctx : HostContext) (op : OpCode) (rest : List HostEvent) (e : DecodeError),
    s.inputs = ⟨ctx, .forward op⟩ :: rest → decode ⟨op, s.block.resFrame⟩ = .error e →
      step s = .next (raiseAbsent .illegalOp { s with inputs := rest })

/-- A step with no interaction to come changes nothing: the block never starts a step by itself
(10_state.md R10); that the model then answers the same state is its own choice (log 2). -/
def Obligations.IdleStepChangesNothing : Prop :=
  ∀ s : State, s.inputs = [] → step s = .next s

/-- 60_exceptions.md R103: issuing a reserved OP, 0x0 or 0xC..0xF, with any operand and from any state, is an
absence with cause ILLEGAL_OP (5) that clears the previous result. -/
def Obligations.ReservedOpIsIllegal : Prop :=
  ∀ (op : OpCode) (w : FrameWord) (s : State), op ∈ [0x0#4, 0xC#4, 0xD#4, 0xE#4, 0xF#4] →
    ∃ t, issue ⟨op, w⟩ s = .next t ∧ HoldsAbsence t.block 5#4 ∧ HostSideKept s t

/-- Words of the spec's examples (95_test_vectors.md I6, K12, K17, T1, E2) decode to the operations they
stand for. -/
def Obligations.SampleCommandsDecode : Prop :=
  decode ⟨0x2#4, 0x0000000000000000_00000001001ABCDE#128⟩ = .ok (.idExt 0x1ABCDE#32) ∧
  decode ⟨0x7#4, 0x000000000000ADDE_0002000000000123#128⟩ =
    .ok (.dfNewData ⟨.standard, 0x123#32⟩ ⟨2#8, [0xDE#8, 0xAD#8]⟩) ∧
  decode ⟨0x8#4, 0x0000000000000000_00000401001ABCDE#128⟩ =
    .ok (.dfNewRemote ⟨.extended, 0x1ABCDE#32⟩ 4#8) ∧
  decode ⟨0x9#4, 0x0807060504030201_0008080400000001#128⟩ =
    .ok (.toProtocol ⟨⟨.standard, 1#32⟩, .data, 8#8,
      some ⟨8#8, [1#8, 2#8, 3#8, 4#8, 5#8, 6#8, 7#8, 8#8]⟩⟩) ∧
  decode ⟨0xB#4, 0x0000000000000000_00000403001ABCDE#128⟩ =
    .ok (.encodeLine ⟨⟨.extended, 0x1ABCDE#32⟩, .remote, 4#8, []⟩)

/-- The encoder and the decoder agree on every well-formed operation, every operand at every value the encoding
admits: no bit of an encoding is dropped (30_encoding.md R42, R43). -/
def Obligations.DecodeOfEncode : Prop :=
  ∀ i : Instr, i.wf = true → decode (encode i) = .ok i

/-- Every assigned OP decodes, with any operand, to a well-formed operation; every reserved OP is rejected by
name (30_encoding.md R40, R52). -/
def Obligations.DecoderIsTotal : Prop :=
  ∀ c : Command,
    (c.op ∈ [0x0#4, 0xC#4, 0xD#4, 0xE#4, 0xF#4] ∧ decode c = .error (.reservedOp c.op)) ∨
    (c.op ∉ [0x0#4, 0xC#4, 0xD#4, 0xE#4, 0xF#4] ∧
      ∃ i, decode c = .ok i ∧ i.wf = true ∧ (encode i).op = c.op)

/-- 30_encoding.md R43: two operands that agree on the fields an operation's reading lists are the same operand.
The fields are compared as bits; for a payload, DATA[i] is compared below the payload length only, and the
protocol reading compares no DATA for a remote frame. -/
def Obligations.UnreadFieldsIgnored : Prop :=
  ∀ (op : OpCode) (v w : FrameWord), v.extractLsb' 0 32 = w.extractLsb' 0 32 →
    (op ∉ [0x1#4, 0x2#4] → v.extractLsb' 32 1 = w.extractLsb' 32 1) →
    (op ∈ [0x9#4, 0xA#4, 0xB#4] → v.extractLsb' 33 1 = w.extractLsb' 33 1) →
    (op ∈ [0x6#4, 0x8#4, 0x9#4, 0xA#4, 0xB#4] → v.extractLsb' 40 8 = w.extractLsb' 40 8) →
    (op = 0x9#4 → v.extractLsb' 34 1 = w.extractLsb' 34 1) →
    (op ∈ [0x5#4, 0x7#4] ∨ (op = 0x9#4 ∧ w.extractLsb' 34 1 = 1#1) →
      v.extractLsb' 48 8 = w.extractLsb' 48 8 ∧
        ∀ i, i < 8 → i < (w.extractLsb' 48 8).toNat →
          v.extractLsb' (64 + 8 * i) 8 = w.extractLsb' (64 + 8 * i) 8) →
    (op ∈ [0xA#4, 0xB#4] ∧ w.extractLsb' 33 1 = 0#1 ∧ (w.extractLsb' 40 8).toNat ≤ 8 →
      ∀ i < (w.extractLsb' 40 8).toNat,
        v.extractLsb' (64 + 8 * i) 8 = w.extractLsb' (64 + 8 * i) 8) →
    decode ⟨op, v⟩ = decode ⟨op, w⟩

/-- The text of a host program's line (30_encoding.md R53): a field left out is 0, so a line that names an OP and
fields stands for the command with that OP and the frame word with exactly those fields. -/
def Obligations.HostLineCommand : Prop :=
  ∀ l : HostLine, l.command.op = l.op ∧
    WordIs l.command.opd l.fields.id l.fields.ide l.fields.rtr l.fields.pp l.fields.len l.fields.plen
      fun i => l.fields.data.extractLsb' (8 * i) 8

/-! ### Identifier operations (40_identifier.md) -/

/-- 40_identifier.md R61, ID_STD. -/
def Obligations.IdStdConstructs : Prop :=
  (∀ w : FrameWord, decode ⟨0x1#4, w⟩ = .ok (.idStd (w.extractLsb' 0 32))) ∧
  ∀ (v : BitVec 32) (s : State),
    (v.toNat ≤ 0x7FF → ∃ t, exec (.idStd v) s = .next t ∧ HoldsFrame t.block 1#3 t.block.resFrame ∧
      WordIs t.block.resFrame v 0#1 0#1 0#1 0#8 0#8 (fun _ => 0#8) ∧ HostSideKept s t) ∧
    (0x7FF < v.toNat → ∃ t, exec (.idStd v) s = .next t ∧ HoldsAbsence t.block 1#4 ∧ HostSideKept s t)

/-- 40_identifier.md R62, ID_EXT. -/
def Obligations.IdExtConstructs : Prop :=
  (∀ w : FrameWord, decode ⟨0x2#4, w⟩ = .ok (.idExt (w.extractLsb' 0 32))) ∧
  ∀ (v : BitVec 32) (s : State),
    (v.toNat ≤ 0x1FFFFFFF → ∃ t, exec (.idExt v) s = .next t ∧ HoldsFrame t.block 1#3 t.block.resFrame ∧
      WordIs t.block.resFrame v 1#1 0#1 0#1 0#8 0#8 (fun _ => 0#8) ∧ HostSideKept s t) ∧
    (0x1FFFFFFF < v.toNat →
      ∃ t, exec (.idExt v) s = .next t ∧ HoldsAbsence t.block 1#4 ∧ HostSideKept s t)

/-- 40_identifier.md R63 and R64, TO_PROTOCOL_ID and TO_DRIVER_ID: the identifier is written with tag and value
unchanged, or the operation ends in absence with ID_RANGE. -/
def Obligations.IdentifierConversions : Prop :=
  (∀ w : FrameWord, ∃ id, IdentifierOf w id ∧ decode ⟨0x3#4, w⟩ = .ok (.toProtocolId id) ∧
    decode ⟨0x4#4, w⟩ = .ok (.toDriverId id)) ∧
  ∀ (id : Identifier) (s : State), ∀ i ∈ [Instr.toProtocolId id, Instr.toDriverId id],
    (ValidIdentifier id → ∃ t, exec i s = .next t ∧ HoldsFrame t.block 1#3 t.block.resFrame ∧
      WordIs t.block.resFrame id.value (ideBit id.tag) 0#1 0#1 0#8 0#8 (fun _ => 0#8) ∧
      HostSideKept s t) ∧
    (¬ ValidIdentifier id → ∃ t, exec i s = .next t ∧ HoldsAbsence t.block 1#4 ∧ HostSideKept s t)

/-- Identifier conversion is the identity on valid identifiers and loses nothing (the spec's derived rule
40_identifier.md R65), as two steps: converting, then converting RES_FRAME back, gives the first result again. -/
def Obligations.IdentifierRoundTrip : Prop :=
  ∀ (id : Identifier) (s t : State), ∀ ops ∈ [(0x3#4, 0x4#4), (0x4#4, 0x3#4)], ValidIdentifier id →
    issue ⟨ops.1, (encode (.toProtocolId id)).opd⟩ s = .next t →
      ∃ u, issue ⟨ops.2, t.block.resFrame⟩ t = .next u ∧ u.block = t.block ∧ u.block.resValid = 1#1 ∧
        WordIs u.block.resFrame id.value (ideBit id.tag) 0#1 0#1 0#8 0#8 fun _ => 0#8

/-! ### Frame construction (41_frame_construct.md) -/

/-- 41_frame_construct.md R70 and R71, PF_NEW_DATA: n = PLEN bytes give a data frame of length n; ID_RANGE comes
before PAYLOAD_CAPACITY. -/
def Obligations.PfNewDataConstructs : Prop :=
  (∀ w : FrameWord, ∃ id p, IdentifierOf w id ∧ PayloadOf w p ∧
    decode ⟨0x5#4, w⟩ = .ok (.pfNewData id p)) ∧
  ∀ (id : Identifier) (p : Payload) (s : State),
    (ValidIdentifier id → p.len.toNat ≤ 8 → p.wf = true →
      ∃ t, exec (.pfNewData id p) s = .next t ∧ HoldsFrame t.block 3#3 t.block.resFrame ∧
        WordIs t.block.resFrame id.value (ideBit id.tag) 0#1 0#1 p.len 0#8 (byteAt p.held) ∧
        HostSideKept s t) ∧
    (ValidIdentifier id → 8 < p.len.toNat →
      ∃ t, exec (.pfNewData id p) s = .next t ∧ HoldsAbsence t.block 3#4 ∧ HostSideKept s t) ∧
    (¬ ValidIdentifier id →
      ∃ t, exec (.pfNewData id p) s = .next t ∧ HoldsAbsence t.block 1#4 ∧ HostSideKept s t)

/-- 41_frame_construct.md R72 and R73, PF_NEW_REMOTE: length n, no payload; ID_RANGE comes before
LENGTH_RANGE. -/
def Obligations.PfNewRemoteConstructs : Prop :=
  (∀ w : FrameWord, ∃ id, IdentifierOf w id ∧
    decode ⟨0x6#4, w⟩ = .ok (.pfNewRemote id (w.extractLsb' 40 8))) ∧
  ∀ (id : Identifier) (n : BitVec 8) (s : State),
    (ValidIdentifier id → n.toNat ≤ 8 →
      ∃ t, exec (.pfNewRemote id n) s = .next t ∧ HoldsFrame t.block 3#3 t.block.resFrame ∧
        WordIs t.block.resFrame id.value (ideBit id.tag) 1#1 0#1 n 0#8 (fun _ => 0#8) ∧
        HostSideKept s t) ∧
    (ValidIdentifier id → 8 < n.toNat →
      ∃ t, exec (.pfNewRemote id n) s = .next t ∧ HoldsAbsence t.block 2#4 ∧ HostSideKept s t) ∧
    (¬ ValidIdentifier id →
      ∃ t, exec (.pfNewRemote id n) s = .next t ∧ HoldsAbsence t.block 1#4 ∧ HostSideKept s t)

/-- 41_frame_construct.md R74 and R75, DF_NEW_DATA: DLC = PLEN = n and the payload object is present for every
n in 0..8, 0 included. -/
def Obligations.DfNewDataConstructs : Prop :=
  (∀ w : FrameWord, ∃ id p, IdentifierOf w id ∧ PayloadOf w p ∧
    decode ⟨0x7#4, w⟩ = .ok (.dfNewData id p)) ∧
  ∀ (id : Identifier) (p : Payload) (s : State),
    (ValidIdentifier id → p.len.toNat ≤ 8 → p.wf = true →
      ∃ t, exec (.dfNewData id p) s = .next t ∧ HoldsFrame t.block 2#3 t.block.resFrame ∧
        WordIs t.block.resFrame id.value (ideBit id.tag) 0#1 1#1 p.len p.len (byteAt p.held) ∧
        HostSideKept s t) ∧
    (ValidIdentifier id → 8 < p.len.toNat →
      ∃ t, exec (.dfNewData id p) s = .next t ∧ HoldsAbsence t.block 3#4 ∧ HostSideKept s t) ∧
    (¬ ValidIdentifier id →
      ∃ t, exec (.dfNewData id p) s = .next t ∧ HoldsAbsence t.block 1#4 ∧ HostSideKept s t)

/-- 41_frame_construct.md R76 and R77, DF_NEW_REMOTE: DLC n, no payload object. -/
def Obligations.DfNewRemoteConstructs : Prop :=
  (∀ w : FrameWord, ∃ id, IdentifierOf w id ∧
    decode ⟨0x8#4, w⟩ = .ok (.dfNewRemote id (w.extractLsb' 40 8))) ∧
  ∀ (id : Identifier) (n : BitVec 8) (s : State),
    (ValidIdentifier id → n.toNat ≤ 8 →
      ∃ t, exec (.dfNewRemote id n) s = .next t ∧ HoldsFrame t.block 2#3 t.block.resFrame ∧
        WordIs t.block.resFrame id.value (ideBit id.tag) 1#1 0#1 n 0#8 (fun _ => 0#8) ∧
        HostSideKept s t) ∧
    (ValidIdentifier id → 8 < n.toNat →
      ∃ t, exec (.dfNewRemote id n) s = .next t ∧ HoldsAbsence t.block 2#4 ∧ HostSideKept s t) ∧
    (¬ ValidIdentifier id →
      ∃ t, exec (.dfNewRemote id n) s = .next t ∧ HoldsAbsence t.block 1#4 ∧ HostSideKept s t)

/-- The protocol and the driver constructor on the same operand and from the same state (the spec's derived rule
41_frame_construct.md R78): both succeed or both fail with the same cause, and the two result words differ only in
PP and PLEN. Stated over the raw operand word, for the data pair (0x5, 0x7) and the remote pair (0x6, 0x8). -/
def Obligations.ConstructorsAgree : Prop :=
  ∀ (w : FrameWord) (s t u : State), ∀ ops ∈ [(0x5#4, 0x7#4), (0x6#4, 0x8#4)],
    issue ⟨ops.1, w⟩ s = .next t → issue ⟨ops.2, w⟩ s = .next u →
      t.block.resValid = u.block.resValid ∧ t.block.resCause = u.block.resCause ∧
      (t.block.resValid = 1#1 → t.block.resKind = 3#3 ∧ u.block.resKind = 2#3 ∧
        t.block.resFrame.extractLsb' 34 1 = 0#1 ∧ t.block.resFrame.extractLsb' 48 8 = 0#8 ∧
        u.block.resFrame = t.block.resFrame |||
          (if ops.1 = 0x5#4 then (1#128 <<< 34) ||| ((w.extractLsb' 48 8).setWidth 128 <<< 48)
            else 0#128))

/-! ### Frame translation (42_translate.md) -/

/-- 42_translate.md R80 and R81, TO_PROTOCOL: the three routes of a driver frame and the absences in their order.
A data frame's DLC and a remote frame's payload are not read. -/
def Obligations.ToProtocolTranslates : Prop :=
  (∀ w : FrameWord, ∃ id k p, IdentifierOf w id ∧ rtrBit k = w.extractLsb' 33 1 ∧
    (w.extractLsb' 34 1 = 0#1 → p = none) ∧
    (w.extractLsb' 34 1 = 1#1 → ∃ q, p = some q ∧ PayloadOf w q) ∧
    decode ⟨0x9#4, w⟩ = .ok (.toProtocol ⟨id, k, w.extractLsb' 40 8, p⟩)) ∧
  ∀ (id : Identifier) (dlc : BitVec 8) (s : State),
    (ValidIdentifier id → dlc.toNat ≤ 8 → ∀ p : Option Payload,
      ∃ t, exec (.toProtocol ⟨id, .remote, dlc, p⟩) s = .next t ∧
        HoldsFrame t.block 3#3 t.block.resFrame ∧
        WordIs t.block.resFrame id.value (ideBit id.tag) 1#1 0#1 dlc 0#8 (fun _ => 0#8) ∧
        HostSideKept s t) ∧
    (ValidIdentifier id → ∀ p : Payload, p.len.toNat ≤ 8 → p.wf = true →
      ∃ t, exec (.toProtocol ⟨id, .data, dlc, some p⟩) s = .next t ∧
        HoldsFrame t.block 3#3 t.block.resFrame ∧
        WordIs t.block.resFrame id.value (ideBit id.tag) 0#1 0#1 p.len 0#8 (byteAt p.held) ∧
        HostSideKept s t) ∧
    (ValidIdentifier id →
      ∃ t, exec (.toProtocol ⟨id, .data, dlc, none⟩) s = .next t ∧
        HoldsFrame t.block 3#3 t.block.resFrame ∧
        WordIs t.block.resFrame id.value (ideBit id.tag) 0#1 0#1 0#8 0#8 (fun _ => 0#8) ∧
        HostSideKept s t) ∧
    (¬ ValidIdentifier id → ∀ (k : FrameKind) (p : Option Payload),
      ∃ t, exec (.toProtocol ⟨id, k, dlc, p⟩) s = .next t ∧ HoldsAbsence t.block 1#4 ∧
        HostSideKept s t) ∧
    (ValidIdentifier id → 8 < dlc.toNat → ∀ p : Option Payload,
      ∃ t, exec (.toProtocol ⟨id, .remote, dlc, p⟩) s = .next t ∧ HoldsAbsence t.block 2#4 ∧
        HostSideKept s t) ∧
    (ValidIdentifier id → ∀ p : Payload, 8 < p.len.toNat →
      ∃ t, exec (.toProtocol ⟨id, .data, dlc, some p⟩) s = .next t ∧ HoldsAbsence t.block 3#4 ∧
        HostSideKept s t)

/-- 42_translate.md R82 and R83, TO_DRIVER: the two routes of a protocol frame and the absences in their
order. -/
def Obligations.ToDriverTranslates : Prop :=
  (∀ w : FrameWord, ∃ id k p, IdentifierOf w id ∧ rtrBit k = w.extractLsb' 33 1 ∧ BytesOf w p ∧
    (k = .remote → p = []) ∧
    (k = .data → (w.extractLsb' 40 8).toNat ≤ 8 → p.length = (w.extractLsb' 40 8).toNat) ∧
    decode ⟨0xA#4, w⟩ = .ok (.toDriver ⟨id, k, w.extractLsb' 40 8, p⟩)) ∧
  ∀ (f : ProtocolFrame) (s : State),
    (ValidProtocolFrame f → f.kind = .data →
      ∃ t, exec (.toDriver f) s = .next t ∧ HoldsFrame t.block 2#3 t.block.resFrame ∧
        WordIs t.block.resFrame f.id.value (ideBit f.id.tag) 0#1 1#1 f.len f.len (byteAt f.payload) ∧
        HostSideKept s t) ∧
    (ValidIdentifier f.id → f.len.toNat ≤ 8 → f.kind = .remote →
      ∃ t, exec (.toDriver f) s = .next t ∧ HoldsFrame t.block 2#3 t.block.resFrame ∧
        WordIs t.block.resFrame f.id.value (ideBit f.id.tag) 1#1 0#1 f.len 0#8 (fun _ => 0#8) ∧
        HostSideKept s t) ∧
    (¬ ValidIdentifier f.id →
      ∃ t, exec (.toDriver f) s = .next t ∧ HoldsAbsence t.block 1#4 ∧ HostSideKept s t) ∧
    (ValidIdentifier f.id → 8 < f.len.toNat →
      ∃ t, exec (.toDriver f) s = .next t ∧
        HoldsAbsence t.block (match f.kind with | .remote => 2#4 | .data => 3#4) ∧ HostSideKept s t)

/-- Results read back (the spec's derived rule 30_encoding.md R45): a protocol result word read in the protocol
reading is the same ProtocolFrame, and a driver result word read in the driver reading is the same DriverFrame,
so the host can forward it unchanged. -/
def Obligations.ResultWordsReadBack : Prop :=
  (∀ (f : ProtocolFrame), ValidProtocolFrame f →
    decode ⟨0xA#4, protocolWord f⟩ = .ok (.toDriver f) ∧
    decode ⟨0xB#4, protocolWord f⟩ = .ok (.encodeLine f)) ∧
  (∀ (f : DriverFrame), ValidDriverFrame f →
    decode ⟨0x9#4, driverWord f⟩ = .ok (.toProtocol f)) ∧
  ∀ (id : Identifier), decode ⟨0x3#4, idWord id⟩ = .ok (.toProtocolId id) ∧
    decode ⟨0x4#4, idWord id⟩ = .ok (.toDriverId id)

/-- Round trip protocol to driver to protocol (the spec's derived rule 42_translate.md R84): for every valid
ProtocolFrame, TO_DRIVER and then TO_PROTOCOL of the forwarded result give the frame back bit for bit. Stated
over two steps of the machine; forwarding as an interaction is log 11. -/
def Obligations.ProtocolDriverRoundTrip : Prop :=
  ∀ (f : ProtocolFrame) (s : State) (a b : HostContext) (rest : List HostEvent), ValidProtocolFrame f →
    s.inputs = ⟨a, .issue ⟨0xA#4, protocolWord f⟩⟩ :: ⟨b, .forward 0x9#4⟩ :: rest →
      ∃ t u, step s = .next t ∧ t.block.resValid = 1#1 ∧ t.block.resKind = 2#3 ∧
        step t = .next u ∧ HoldsFrame u.block 3#3 (protocolWord f) ∧
        WordIs u.block.resFrame f.id.value (ideBit f.id.tag) (rtrBit f.kind) 0#1 f.len 0#8
          (byteAt f.payload)

/-- Round trip driver to protocol to driver (the spec's derived rule 42_translate.md R85), over the raw driver
operand `w`: when TO_PROTOCOL succeeds, TO_DRIVER of the forwarded result succeeds; identifier and kind are kept;
the DLC, the payload's presence and its bytes are as the rule's table says, case by case. -/
def Obligations.DriverProtocolRoundTrip : Prop :=
  ∀ (w : FrameWord) (s t : State), issue ⟨0x9#4, w⟩ s = .next t → t.block.resValid = 1#1 →
    ∃ u, issue ⟨0xA#4, t.block.resFrame⟩ t = .next u ∧ HoldsFrame u.block 2#3 u.block.resFrame ∧
      (w.extractLsb' 33 1 = 0#1 → w.extractLsb' 34 1 = 1#1 →
        WordIs u.block.resFrame (w.extractLsb' 0 32) (w.extractLsb' 32 1) 0#1 1#1 (w.extractLsb' 48 8)
          (w.extractLsb' 48 8) fun i =>
            if i < (w.extractLsb' 48 8).toNat then w.extractLsb' (64 + 8 * i) 8 else 0#8) ∧
      (w.extractLsb' 33 1 = 0#1 → w.extractLsb' 34 1 = 0#1 →
        WordIs u.block.resFrame (w.extractLsb' 0 32) (w.extractLsb' 32 1) 0#1 1#1 0#8 0#8 fun _ => 0#8) ∧
      (w.extractLsb' 33 1 = 1#1 →
        WordIs u.block.resFrame (w.extractLsb' 0 32) (w.extractLsb' 32 1) 1#1 0#1 (w.extractLsb' 40 8)
          0#8 fun _ => 0#8)

/-- The translator never truncates (the spec's derived rule 42_translate.md R86): whenever an operation of the
translator gives a result, its identifier value is the operand's whole 32-bit ID field, which is in range for the
result's tag; the tag is the operand's (ID_STD and ID_EXT: the operation's own); and the length the operation reads
is at most 8 and written unchanged. TO_PROTOCOL reads LEN of a remote frame and PLEN of a data frame with a payload;
of a data frame without one it reads no length. -/
def Obligations.TranslatorNeverTruncates : Prop :=
  ∀ (op : OpCode) (w : FrameWord) (s t : State), issue ⟨op, w⟩ s = .next t → t.block.resValid = 1#1 →
    op ≠ 0xB#4 →
      t.block.resFrame.extractLsb' 0 32 = w.extractLsb' 0 32 ∧
      (w.extractLsb' 0 32).toNat ≤
        (if t.block.resFrame.extractLsb' 32 1 = 0#1 then 0x7FF else 0x1FFFFFFF) ∧
      t.block.resFrame.extractLsb' 32 1 =
        (if op = 0x1#4 then 0#1 else if op = 0x2#4 then 1#1 else w.extractLsb' 32 1) ∧
      (op ∈ [0x5#4, 0x7#4] → (w.extractLsb' 48 8).toNat ≤ 8 ∧
        t.block.resFrame.extractLsb' 40 8 = w.extractLsb' 48 8) ∧
      (op ∈ [0x6#4, 0x8#4, 0xA#4] → (w.extractLsb' 40 8).toNat ≤ 8 ∧
        t.block.resFrame.extractLsb' 40 8 = w.extractLsb' 40 8) ∧
      (op = 0x9#4 → w.extractLsb' 33 1 = 1#1 → (w.extractLsb' 40 8).toNat ≤ 8 ∧
        t.block.resFrame.extractLsb' 40 8 = w.extractLsb' 40 8) ∧
      (op = 0x9#4 → w.extractLsb' 33 1 = 0#1 → w.extractLsb' 34 1 = 1#1 →
        (w.extractLsb' 48 8).toNat ≤ 8 ∧ t.block.resFrame.extractLsb' 40 8 = w.extractLsb' 48 8)

/-! ### Line encoding (43_line_encode.md) -/

/-- 43_line_encode.md R90 and R91, ENCODE_LINE, with the marker letters and the hex digits as the functions
`slcanMarker` and `hexDigit defaultLine` (logs 6 and 7: their values are the spec's presumption): the position of
every byte of the line, the two absences in their order, and every other cell 0x00. -/
def Obligations.EncodeLineRenders : Prop :=
  (∀ w : FrameWord, ∃ id k p, IdentifierOf w id ∧ rtrBit k = w.extractLsb' 33 1 ∧ BytesOf w p ∧
    (k = .remote → p = []) ∧
    (k = .data → (w.extractLsb' 40 8).toNat ≤ 8 → p.length = (w.extractLsb' 40 8).toNat) ∧
    decode ⟨0xB#4, w⟩ = .ok (.encodeLine ⟨id, k, w.extractLsb' 40 8, p⟩)) ∧
  ∀ (f : ProtocolFrame) (s : State),
    (ValidProtocolFrame f → ∃ t bs, exec (.encodeLine f) s = .next t ∧ HoldsLine t.block bs ∧
      HostSideKept s t ∧ bs.length = lineLength f.id.tag f.kind f.len.toNat ∧
      bs[0]? = some (slcanMarker f.id.tag f.kind) ∧
      (∀ k < digitsOf f.id.tag, bs[1 + k]? =
        some (hexDigit defaultLine (f.id.value.extractLsb' (4 * (digitsOf f.id.tag - 1 - k)) 4))) ∧
      bs[digitsOf f.id.tag + 1]? = some (hexDigit defaultLine (f.len.extractLsb' 0 4)) ∧
      (f.kind = .data → ∀ i < f.len.toNat,
        bs[digitsOf f.id.tag + 2 + 2 * i]? =
          some (hexDigit defaultLine ((byteAt f.payload i).extractLsb' 4 4)) ∧
        bs[digitsOf f.id.tag + 3 + 2 * i]? =
          some (hexDigit defaultLine ((byteAt f.payload i).extractLsb' 0 4))) ∧
      bs[bs.length - 1]? = some 0x0D#8) ∧
    (¬ ValidIdentifier f.id →
      ∃ t, exec (.encodeLine f) s = .next t ∧ HoldsAbsence t.block 1#4 ∧ HostSideKept s t) ∧
    (ValidIdentifier f.id → 8 < f.len.toNat →
      ∃ t, exec (.encodeLine f) s = .next t ∧
        HoldsAbsence t.block (match f.kind with | .remote => 2#4 | .data => 3#4) ∧ HostSideKept s t)

/-- The hex digit (30_encoding.md R47, upper case) and the marker bytes (30_encoding.md R48): the values the spec
writes out in its two tables. The letters and their case are the spec's presumption (logs 6 and 7). -/
def Obligations.DigitAndMarkerBytes : Prop :=
  (∀ v : BitVec 4, hexDigit defaultLine v =
    if v.toNat ≤ 9 then BitVec.ofNat 8 (0x30 + v.toNat) else BitVec.ofNat 8 (0x41 + (v.toNat - 10))) ∧
  slcanMarker .standard .data = 0x74#8 ∧ slcanMarker .extended .data = 0x54#8 ∧
  slcanMarker .standard .remote = 0x72#8 ∧ slcanMarker .extended .remote = 0x52#8

/-- The shape of every line (the spec's derived rule 43_line_encode.md R92; 30_encoding.md R50): for every valid
frame ENCODE_LINE leaves a line of `line_len` bytes, between 6 and 27, in the cells LINE[0] to LINE[LINE_LEN-1];
the last is 0x0D, no other is 0x0D, and every other is one of `t T r R 0-9 A-F`. -/
def Obligations.LineShape : Prop :=
  ∀ (f : ProtocolFrame) (s : State), ValidProtocolFrame f →
    ∃ t, exec (.encodeLine f) s = .next t ∧
      t.block.lineLen.toNat = lineLength f.id.tag f.kind f.len.toNat ∧
      6 ≤ t.block.lineLen.toNat ∧ t.block.lineLen.toNat ≤ 27 ∧
      t.block.line.read (t.block.lineLen.toNat - 1) = 0x0D#8 ∧
      (∀ i < t.block.lineLen.toNat - 1,
        t.block.line.read i ≠ 0x0D#8 ∧ lineByte (t.block.line.read i) = true) ∧
      ∀ i < 27, t.block.lineLen.toNat ≤ i → t.block.line.read i = 0x00#8

/-- Lines determine frames (the spec's derived rule 43_line_encode.md R93): for ANY marker letters that meet the
source's constraints (93_implementation_defined.md I1) and either letter case of the digits (I3), two valid frames
with the same line are the same frame. -/
def Obligations.LineDeterminesFrame : Prop :=
  ∀ (cfg : LineConfig) (f g : ProtocolFrame) (bs : List Byte), MarkersOk cfg →
    ValidProtocolFrame f → ValidProtocolFrame g →
    encodeLine cfg f = .ok bs → encodeLine cfg g = .ok bs → f = g

/-- A line's length can be told from its first bytes (the spec's derived rule 30_encoding.md R51): the marker and
the length digit in LINE give LINE_LEN. -/
def Obligations.LineLengthFromFirstBytes : Prop :=
  ∀ (f : ProtocolFrame) (s t : State), ValidProtocolFrame f → exec (.encodeLine f) s = .next t →
    lengthFromFirstBytes t.block.line.read = t.block.lineLen.toNat

/-- The bytes up to the first 0x00 are the line (the spec's derived rule 70_reset_and_hazards.md R125): taking
LINE's cells in order up to the first 0x00 gives exactly LINE[0..LINE_LEN-1], in every state the invariant
allows. -/
def Obligations.LineEndsAtFirstZero : Prop :=
  ∀ s : State, Invariant s →
    ((List.range 27).map s.block.line.read).takeWhile (fun b => b != 0x00#8) =
      (List.range s.block.lineLen.toNat).map s.block.line.read

/-- The receive path's line (43_line_encode.md R95), as two steps of the machine: TO_PROTOCOL, then its result
forwarded unchanged to ENCODE_LINE. When the translation succeeds with the frame `g`, LINE holds the line of `g`;
when it fails, the cause is left and there is nothing to forward. -/
def Obligations.ReceivePathLine : Prop :=
  ∀ (d : DriverFrame) (s : State) (a b : HostContext) (rest : List HostEvent), d.wf = true →
    s.inputs = ⟨a, .issue (encode (.toProtocol d))⟩ :: ⟨b, .forward 0xB#4⟩ :: rest →
      ∃ t, step s = .next t ∧
        ((∃ g bs u, toProtocol d = .ok g ∧ encodeLine defaultLine g = .ok bs ∧ ValidProtocolFrame g ∧
            step t = .next u ∧ HoldsLine u.block bs) ∨
          ∃ c : Cause, toProtocol d = .error c ∧ HoldsAbsence t.block c.code)

/-! ### Causes, purity, atomicity -/

/-- 60_exceptions.md R104 with R102 and R103: the one cause every command reports, as an ordered list of conditions
on the raw bits of OP and OPD. RES_VALID is 1 exactly when the cause is NONE. -/
def Obligations.CauseIsFirstThatApplies : Prop :=
  ∀ (op : OpCode) (w : FrameWord) (s : State), ∃ t, issue ⟨op, w⟩ s = .next t ∧
    t.block.resCause =
      (if op ∈ [0x0#4, 0xC#4, 0xD#4, 0xE#4, 0xF#4] then 5#4
      else if (if op = 0x1#4 then 0x7FF else if op = 0x2#4 then 0x1FFFFFFF
          else if w.extractLsb' 32 1 = 0#1 then 0x7FF else 0x1FFFFFFF) < (w.extractLsb' 0 32).toNat then
        1#4
      else if (op ∈ [0x6#4, 0x8#4] ∨ (op ∈ [0x9#4, 0xA#4, 0xB#4] ∧ w.extractLsb' 33 1 = 1#1)) ∧
          8 < (w.extractLsb' 40 8).toNat then 2#4
      else if ((op ∈ [0x5#4, 0x7#4] ∨
            (op = 0x9#4 ∧ w.extractLsb' 33 1 = 0#1 ∧ w.extractLsb' 34 1 = 1#1)) ∧
              8 < (w.extractLsb' 48 8).toNat) ∨
          (op ∈ [0xA#4, 0xB#4] ∧ w.extractLsb' 33 1 = 0#1 ∧ 8 < (w.extractLsb' 40 8).toNat) then 3#4
      else 0#4) ∧
    (t.block.resValid = 1#1 ↔ t.block.resCause = 0#4)

/-- Every operation is a function of OP and OPD alone (the spec's derived rule 60_exceptions.md R113, with
70_reset_and_hazards.md R122): from any two states, whatever they hold, issuing the same command completes and
leaves the same six result registers; and nothing of the host's side is touched. -/
def Obligations.IssueIsPure : Prop :=
  ∀ (c : Command) (s s' : State), ∃ t t', issue c s = .next t ∧ issue c s' = .next t' ∧
    t.block = t'.block ∧ HostSideKept s t ∧ HostSideKept s' t'

/-- The frame of every operation of the translator (60_exceptions.md R100, R101): LINE is cleared, every cell,
LINE_LEN is 0, and the host's side is as it was; for ENCODE_LINE, which stores to all 27 cells, RES_FRAME is 0 and
the host's side is as it was. -/
def Obligations.OperationFrames : Prop :=
  ∀ (i : Instr) (s t : State), exec i s = .next t → HostSideKept s t ∧
    match i with
    | .encodeLine _ => t.block.resFrame = 0#128
    | .idStd _ | .idExt _ | .toProtocolId _ | .toDriverId _ | .pfNewData _ _ | .pfNewRemote _ _
    | .dfNewData _ _ | .dfNewRemote _ _ | .toProtocol _ | .toDriver _ => LineCleared t.block

/-- The loop of 43_line_encode.md R91 over the cells LINE held before (from any canonical contents) is the image
ENCODE_LINE writes, and the clearing loop of 60_exceptions.md R100 leaves what an absence leaves. -/
def Obligations.LineWriteLoop : Prop :=
  ∀ (m : Memory) (bs : List Byte), m.wf = true →
    (List.range 27).foldl (fun m i => m.write i (if i < bs.length then bs.getD i 0#8 else 0x00#8)) m =
        (lineBlock bs).line ∧
      (List.range 27).foldl (fun m i => m.write i 0x00#8) m = (absentBlock .idRange).line

/-- One byte of LINE written and read (20_memory.md R30): in a canonical memory, a write to a cell that exists
keeps the canonical form, is read back, and leaves every other cell as it was; and canonical memories that read
the same at every cell are equal data. The canonical form is the model's own (log 4). -/
def Obligations.LineCellWriteRead : Prop :=
  (∀ (m : Memory) (a : Nat) (b : Byte), m.wf = true → a < 27 →
    (m.write a b).wf = true ∧ (m.write a b).read a = b ∧
      ∀ x, x ≠ a → (m.write a b).read x = m.read x) ∧
  ∀ m n : Memory, m.wf = true → n.wf = true → (∀ i < 27, m.read i = n.read i) → m = n

/-! ### The invariant -/

/-- The invariant holds at reset. -/
def Obligations.InvariantAtReset : Prop := Invariant State.reset

/-- Every step keeps the invariant: LINE stays canonical, and the registers hold no result with a cause that is
raised, or a valid frame word in the format RES_KIND names, or a well-shaped line (10_state.md R13 to R18, R23;
60_exceptions.md R102; 93_implementation_defined.md I14). -/
def Obligations.StepKeepsInvariant : Prop :=
  ∀ s t : State, Invariant s → step s = .next t → Invariant t

/-- After ANY command, from any state, the registers hold no result with one of the causes 1, 2, 3, 5, or a
frame, or a line: an absence never carries NONE, and causes 4 (RENDER_FAULT) and 6..15 and kinds 5..7 are never
written (60_exceptions.md R100, R102; 10_state.md R15; 43_line_encode.md R94). -/
def Obligations.OnlyListedCodesWritten : Prop :=
  ∀ (c : Command) (s : State), ∃ t, issue c s = .next t ∧ Invariant t ∧
    t.block.resCause ∈ [0#4, 1#4, 2#4, 3#4, 5#4] ∧ t.block.resKind ∈ [0#3, 1#3, 2#3, 3#3, 4#3] ∧
    (t.block.resValid = 1#1 ↔ t.block.resKind ≠ 0#3) ∧
    (t.block.resValid = 0#1 → t.block.resCause ≠ 0#4)

/-- A forwarded protocol result always renders (43_line_encode.md R94 with 30_encoding.md R45): from every state
that meets the invariant and holds a PROTOCOL_FRAME, forwarding it to ENCODE_LINE gives a line, and forwarding it
to TO_DRIVER gives a driver frame. -/
def Obligations.ForwardedProtocolFrameAccepted : Prop :=
  ∀ (s : State) (ctx : HostContext) (rest : List HostEvent), Invariant s → s.block.resKind = 3#3 →
    (s.inputs = ⟨ctx, .forward 0xB#4⟩ :: rest →
      ∃ t, step s = .next t ∧ t.block.resValid = 1#1 ∧ t.block.resKind = 4#3) ∧
    (s.inputs = ⟨ctx, .forward 0xA#4⟩ :: rest →
      ∃ t, step s = .next t ∧ t.block.resValid = 1#1 ∧ t.block.resKind = 2#3)

/-- A receive path that keeps its duty always renders (60_exceptions.md R106 as premise): after TO_PROTOCOL of ANY
operand, if the host forwards to ENCODE_LINE and forwards no absence, the next step gives a line. Forwarding as an
interaction is log 11; that every frame fits LINE is log 8. -/
def Obligations.DutifulReceivePathRenders : Prop :=
  ∀ (w : FrameWord) (s t : State) (ctx : HostContext) (rest : List HostEvent),
    issue ⟨0x9#4, w⟩ s = .next t → t.inputs = ⟨ctx, .forward 0xB#4⟩ :: rest → dropsAbsences t →
      ∃ u, step t = .next u ∧ u.block.resValid = 1#1 ∧ u.block.resKind = 4#3

/-! ### The host -/

/-- 10_state.md R25: reading a port gives the register's value to the host, whole and at its own width, and
changes nothing of the block; a LINE index outside 0..26 names no cell and faults (the fault is the model's own
answer to what the host cannot present, log 5). -/
def Obligations.ReadsReturnRegisters : Prop :=
  ∀ (s : State) (ctx : HostContext) (p : ReadPort) (rest : List HostEvent),
    s.inputs = ⟨ctx, .read p⟩ :: rest →
      match p with
      | .resValid =>
        step s = .next { s with inputs := rest, hostGot := some ⟨ctx, .resValid s.block.resValid⟩ }
      | .resCause =>
        step s = .next { s with inputs := rest, hostGot := some ⟨ctx, .resCause s.block.resCause⟩ }
      | .resKind =>
        step s = .next { s with inputs := rest, hostGot := some ⟨ctx, .resKind s.block.resKind⟩ }
      | .resFrame =>
        step s = .next { s with inputs := rest, hostGot := some ⟨ctx, .resFrame s.block.resFrame⟩ }
      | .lineLen =>
        step s = .next { s with inputs := rest, hostGot := some ⟨ctx, .lineLen s.block.lineLen⟩ }
      | .lineCell i =>
        (i < 27 → step s =
          .next { s with inputs := rest, hostGot := some ⟨ctx, .lineCell i (s.block.line.read i)⟩ }) ∧
        (27 ≤ i → step s = .fault (.noLineCell i))

/-- Nothing stops the machine but a read of a LINE cell that does not exist: a failure is a normal completion
(60_exceptions.md R105), and every issue, forward, drop and reset completes. -/
def Obligations.OnlyAnAbsentCellStops : Prop :=
  ∀ s : State, (∀ e rest, s.inputs = e :: rest → presentable e = true) ↔ ∃ t, step s = .next t

/-- The result registers hold until the next operation or reset (10_state.md R13): over any list of presentable
reads and drops, of any length and from any context, the run completes and leaves the block as it was. -/
def Obligations.ResultsHoldBetweenOperations : Prop :=
  ∀ (es rest : List HostEvent) (s : State), (∀ e ∈ es, keepsResults e = true ∧ presentable e = true) →
    s.inputs = es ++ rest →
      ∃ t : State, Host.Core.run Sys2Proof.core es.length s = .next t ∧ t.block = s.block ∧ t.inputs = rest

/-- Serialized contexts read their own results (60_exceptions.md R109): context `a` issues `c`, any presentable
interactions follow in which `a` issues nothing and nobody resets, and `a` reads port `p`. If the whole schedule
is serialized, what `a` gets is what port `p` holds right after its own operation, whatever the other context did
in between. Serialization
as a premise is log 12, the place where the read value stands is log 3. -/
def Obligations.SerializedContextReadsItsOwnResult : Prop :=
  ∀ (a : HostContext) (c : Command) (mid rest : List HostEvent) (p : ReadPort) (s t : State) (v : ReadValue),
    s.inputs = ⟨a, .issue c⟩ :: (mid ++ ⟨a, .read p⟩ :: rest) →
    (∀ e ∈ mid, presentable e = true ∧ e.act ≠ .reset ∧
      (e.ctx = a → keepsResults e = true)) →
    serialized none [] (⟨a, .issue c⟩ :: (mid ++ [⟨a, .read p⟩])) = true →
    step s = .next t → readPort t.block p = .ok v →
      ∃ u : State, Host.Core.run Sys2Proof.core (mid.length + 2) s = .next u ∧ u.hostGot = some ⟨a, v⟩ ∧
        u.block = t.block

/-- The block answers every context alike (60_exceptions.md R110): with the context of the next interaction
exchanged, the step gives the same result registers and the same interactions to come, or stops alike. -/
def Obligations.ContextsAreAlike : Prop :=
  ∀ (s : State) (a b : HostContext) (act : HostAction) (rest : List HostEvent),
    (∀ t, step { s with inputs := ⟨a, act⟩ :: rest } = .next t →
      ∃ u, step { s with inputs := ⟨b, act⟩ :: rest } = .next u ∧ u.block = t.block ∧
        u.inputs = t.inputs) ∧
    ∀ f, step { s with inputs := ⟨a, act⟩ :: rest } = .fault f →
      step { s with inputs := ⟨b, act⟩ :: rest } = .fault f
end

