-- ==== Sys2Proof/Laws/Encoding.lean ====
section
/-! SUPPORT. The frame word read back: every field of an assembled word, the bytes of a packed payload, and the
tag and kind bits. Later proofs cite these and unfold neither `assembleWord` nor `packData`. -/

namespace Sys2Proof.Laws

/-- Bit `j` of an assembled word, field by field (30_encoding.md R42). -/
theorem getLsbD_assembleWord (f : WordFields) (j : Nat) :
    (assembleWord f).getLsbD j =
      if j < 32 then f.id.getLsbD j
      else if j < 33 then f.ide.getLsbD (j - 32)
      else if j < 34 then f.rtr.getLsbD (j - 33)
      else if j < 35 then f.pp.getLsbD (j - 34)
      else if j < 40 then false
      else if j < 48 then f.len.getLsbD (j - 40)
      else if j < 56 then f.plen.getLsbD (j - 48)
      else if j < 64 then false
      else f.data.getLsbD (j - 64) := by
  have unfolded : (assembleWord f).getLsbD j =
      BitVec.getLsbD (w := 64 + 8 + 8 + 8 + 5 + 1 + 1 + 1 + 32)
        (f.data ++ 0#8 ++ f.plen ++ f.len ++ 0#5 ++ f.pp ++ f.rtr ++ f.ide ++ f.id) j := rfl
  have below (k m : Nat) (hm : 0 < m) : (j - k < m) = (j < k + m) := by
    simp only [eq_iff_iff]; omega
  rw [unfolded]
  simp only [BitVec.getLsbD_append]
  simp only [Nat.sub_sub, Nat.reduceAdd, below, Nat.reduceLT, BitVec.getLsbD_zero]

/-! ### The fields of an assembled word -/

/-- A field of an assembled word is the value whose bits stand in its place. -/
theorem extract_assembleWord {n : Nat} (lo : Nat) (v : BitVec n) (f : WordFields)
    (bits : ∀ i < n, (assembleWord f).getLsbD (lo + i) = v.getLsbD i) :
    (assembleWord f).extractLsb' lo n = v := by
  ext i hi
  simpa [hi, BitVec.getElem_extractLsb', ← BitVec.getLsbD_eq_getElem] using bits i hi

section Fields

variable (f : WordFields)

@[simp] theorem fieldId_assembleWord : fieldId (assembleWord f) = f.id :=
  extract_assembleWord 0 f.id f fun i hi => by rw [getLsbD_assembleWord]; split_ifs <;> first | omega | simp

@[simp] theorem fieldIde_assembleWord : fieldIde (assembleWord f) = f.ide :=
  extract_assembleWord 32 f.ide f fun i hi => by rw [getLsbD_assembleWord]; split_ifs <;> first | omega | simp

@[simp] theorem fieldRtr_assembleWord : fieldRtr (assembleWord f) = f.rtr :=
  extract_assembleWord 33 f.rtr f fun i hi => by rw [getLsbD_assembleWord]; split_ifs <;> first | omega | simp

@[simp] theorem fieldPp_assembleWord : fieldPp (assembleWord f) = f.pp :=
  extract_assembleWord 34 f.pp f fun i hi => by rw [getLsbD_assembleWord]; split_ifs <;> first | omega | simp

@[simp] theorem fieldLen_assembleWord : fieldLen (assembleWord f) = f.len :=
  extract_assembleWord 40 f.len f fun i hi => by rw [getLsbD_assembleWord]; split_ifs <;> first | omega | simp

@[simp] theorem fieldPlen_assembleWord : fieldPlen (assembleWord f) = f.plen :=
  extract_assembleWord 48 f.plen f fun i hi => by rw [getLsbD_assembleWord]; split_ifs <;> first | omega | simp

/-- The reserved bits [39:35] of an assembled word (30_encoding.md R52). -/
theorem reservedLow_assembleWord : (assembleWord f).extractLsb' 35 5 = 0#5 :=
  extract_assembleWord 35 0#5 f fun i hi => by rw [getLsbD_assembleWord]; split_ifs <;> first | omega | simp

/-- The reserved bits [63:56] of an assembled word (30_encoding.md R52). -/
theorem reservedHigh_assembleWord : (assembleWord f).extractLsb' 56 8 = 0#8 :=
  extract_assembleWord 56 0#8 f fun i hi => by rw [getLsbD_assembleWord]; split_ifs <;> first | omega | simp

/-- `DATA[i]` of an assembled word is byte `i` of its payload half (20_memory.md R33). -/
theorem dataByte_assembleWord (i : Nat) : dataByte (assembleWord f) i = f.data.extractLsb' (8 * i) 8 :=
  extract_assembleWord (64 + 8 * i) _ f fun j hj => by
    have place : 64 + 8 * i + j - 64 = 8 * i + j := by omega
    rw [getLsbD_assembleWord, place]
    split_ifs <;> first | omega | simp [hj]

end Fields

/-! ### Payload bytes -/

/-- Bit `j` of a packed payload: bit `j % 8` of byte `j / 8`, 0 past the last byte. -/
theorem getLsbD_packData (bs : List Byte) (j : Nat) (hj : j < 64) :
    (packData bs).getLsbD j = (bs.getD (j / 8) 0#8).getLsbD (j % 8) := by
  induction bs generalizing j with
  | nil => simp [packData]
  | cons b bs ih =>
    rw [packData, BitVec.getLsbD_or, BitVec.getLsbD_shiftLeft, BitVec.getLsbD_setWidth]
    rcases Nat.lt_or_ge j 8 with low | high
    · have quot : j / 8 = 0 := by omega
      have rem : j % 8 = j := by omega
      simp [low, hj, quot, rem]
    · have quot : j / 8 = (j - 8) / 8 + 1 := by omega
      have rem : j % 8 = (j - 8) % 8 := by omega
      have above : b.getLsbD j = false := BitVec.getLsbD_of_ge b j high
      rw [ih (j - 8) (by omega), quot, rem, above]
      simp [hj, Nat.not_lt.mpr high]

/-- Byte `i` of a packed payload: 0 past the last byte (30_encoding.md R44). -/
theorem extractByte_packData (bs : List Byte) (i : Nat) (hi : i < 8) :
    (packData bs).extractLsb' (8 * i) 8 = bs.getD i 0#8 := by
  apply BitVec.eq_of_getLsbD_eq
  intro j hj
  rw [BitVec.getLsbD_extractLsb', getLsbD_packData bs _ (by omega),
    show (8 * i + j) / 8 = i by omega, show (8 * i + j) % 8 = j by omega]
  simp [hj]

/-- `DATA[i]` of a word whose payload half is packed from `bs`. -/
theorem dataByte_packData (f : WordFields) (bs : List Byte) (h : f.data = packData bs) (i : Nat)
    (hi : i < 8) : dataByte (assembleWord f) i = bs.getD i 0#8 := by
  rw [dataByte_assembleWord, h, extractByte_packData bs i hi]

@[simp] theorem length_dataBytes (w : FrameWord) (n : Nat) : (dataBytes w n).length = n := by
  simp [dataBytes]

theorem getElem?_dataBytes (w : FrameWord) (n i : Nat) (hi : i < n) :
    (dataBytes w n)[i]? = some (dataByte w i) := by
  simp [dataBytes, hi]

/-- The first `n` bytes of a word whose payload half is packed from exactly `n` bytes are those bytes. -/
theorem dataBytes_packData (f : WordFields) (bs : List Byte) (h : f.data = packData bs)
    (fits : bs.length ≤ 8) : dataBytes (assembleWord f) bs.length = bs := by
  apply List.ext_getElem
  · simp
  · intro i hi hb
    have byte := dataByte_packData f bs h i (by omega)
    simp [dataBytes, byte, hb]

/-! ### Tag and kind bits -/

@[simp] theorem tagOfBit_bitOfTag (t : IdTag) : tagOfBit (bitOfTag t) = t := by
  cases t <;> decide

@[simp] theorem kindOfBit_bitOfKind (k : FrameKind) : kindOfBit (bitOfKind k) = k := by
  cases k <;> decide

@[simp] theorem bitOfTag_tagOfBit (b : BitVec 1) : bitOfTag (tagOfBit b) = b := by
  revert b; decide

@[simp] theorem bitOfKind_kindOfBit (b : BitVec 1) : bitOfKind (kindOfBit b) = b := by
  revert b; decide

end Sys2Proof.Laws
end

