-- ==== Sys2Proof/Laws/Memory.lean ====
section
/-! SUPPORT. The LINE space: the canonical form is kept by every memory operation, a write is read back and
leaves every other cell alone, equal reads are equal data, and a write of all cells gives the same image
whatever was there before. -/

namespace Sys2Proof.Laws

open Sys2Proof.Machine

theorem wfFrom_cons {lo a : Nat} {b : Byte} {m : Memory} :
    Memory.wfFrom lo ((a, b) :: m) = true ↔
      lo ≤ a ∧ a < 27 ∧ b ≠ 0#8 ∧ Memory.wfFrom (a + 1) m = true := by
  simp only [Memory.wfFrom, Bool.and_eq_true, decide_eq_true_eq, bne_iff_ne, and_assoc]
  rfl

theorem wfFrom_mono {lo lo' : Nat} {m : Memory} (h : Memory.wfFrom lo m = true) (le : lo' ≤ lo) :
    Memory.wfFrom lo' m = true := by
  cases m with
  | nil => rfl
  | cons c m =>
    obtain ⟨a, b⟩ := c
    rw [wfFrom_cons] at h ⊢
    exact ⟨by omega, h.2⟩

/-- Below the first listed cell everything reads as unlisted. -/
theorem read_below {lo : Nat} {m : Memory} (h : Memory.wfFrom lo m = true) {a : Nat} (lt : a < lo) :
    m.read a = 0#8 := by
  induction m generalizing lo with
  | nil => rfl
  | cons c m ih =>
    obtain ⟨k, b⟩ := c
    rw [wfFrom_cons] at h
    rw [Memory.read, if_neg (by omega)]
    exact ih h.2.2.2 (by omega)

theorem wfFrom_memoryCons {lo a : Nat} {m : Memory} (h : Memory.wfFrom (a + 1) m = true) (le : lo ≤ a)
    (lt : a < 27) (b : Byte) : Memory.wfFrom lo (Memory.cons a b m) = true := by
  unfold Memory.cons
  split
  · exact wfFrom_mono h (by omega)
  · exact wfFrom_cons.mpr ⟨le, lt, by assumption, h⟩

/-- A write to a cell that exists keeps the canonical form. -/
theorem wfFrom_write {lo : Nat} {m : Memory} (h : Memory.wfFrom lo m = true) {a : Nat} (le : lo ≤ a)
    (lt : a < 27) (b : Byte) : Memory.wfFrom lo (m.write a b) = true := by
  induction m generalizing lo with
  | nil => exact wfFrom_memoryCons (m := []) rfl le lt b
  | cons c m ih =>
    obtain ⟨k, c⟩ := c
    have whole := h
    rw [wfFrom_cons] at h
    rw [Memory.write]
    split_ifs with below same
    · exact wfFrom_memoryCons (wfFrom_cons.mpr ⟨below, h.2⟩) le lt b
    · subst same
      exact wfFrom_memoryCons h.2.2.2 le lt b
    · exact wfFrom_cons.mpr ⟨h.1, h.2.1, h.2.2.1, ih h.2.2.2 (by omega)⟩

theorem read_memoryCons {a : Nat} {m : Memory} (h : Memory.wfFrom (a + 1) m = true) (b : Byte) (x : Nat) :
    (Memory.cons a b m).read x = if x = a then b else m.read x := by
  unfold Memory.cons unlistedByte
  split
  · split
    · subst_vars
      exact read_below h (by omega)
    · rfl
  · rw [Memory.read]
    simp only [eq_comm]

/-- A read after a write: the written cell gives the written byte, every other cell what it gave before. -/
theorem read_write {lo : Nat} {m : Memory} (h : Memory.wfFrom lo m = true) (a : Nat) (b : Byte) (x : Nat) :
    (m.write a b).read x = if x = a then b else m.read x := by
  induction m generalizing lo with
  | nil => exact read_memoryCons (m := []) rfl b x
  | cons c m ih =>
    obtain ⟨k, c⟩ := c
    have whole := h
    rw [wfFrom_cons] at h
    rw [Memory.write]
    by_cases below : a < k
    · rw [if_pos below, read_memoryCons (wfFrom_cons.mpr ⟨below, h.2⟩)]
    by_cases same : a = k
    · subst same
      rw [if_neg below, if_pos rfl, read_memoryCons h.2.2.2]
      by_cases here : x = a
      · rw [if_pos here, if_pos here]
      · rw [if_neg here, if_neg here, Memory.read, if_neg (Ne.symm here)]
    rw [if_neg below, if_neg same, Memory.read, Memory.read, ih h.2.2.2]
    by_cases here : x = a
    · rw [if_pos here, if_pos here, if_neg (by omega)]
    · rw [if_neg here, if_neg here]

/-- Canonical memories that read the same everywhere are the same data. -/
theorem eq_of_read_eq {lo : Nat} {m n : Memory} (hm : Memory.wfFrom lo m = true)
    (hn : Memory.wfFrom lo n = true) (same : ∀ a, m.read a = n.read a) : m = n := by
  induction m generalizing lo n with
  | nil =>
    cases n with
    | nil => rfl
    | cons c n =>
      obtain ⟨k, c⟩ := c
      have := same k
      rw [wfFrom_cons] at hn
      simp [Memory.read, unlistedByte] at this
      exact absurd this.symm hn.2.2.1
  | cons c m ih =>
    obtain ⟨k, b⟩ := c
    have hm' := wfFrom_cons.mp hm
    cases n with
    | nil =>
      have := same k
      simp [Memory.read, unlistedByte] at this
      exact absurd this hm'.2.2.1
    | cons d n =>
      obtain ⟨j, d⟩ := d
      have hn' := wfFrom_cons.mp hn
      have keys : k = j := by
        rcases Nat.lt_trichotomy k j with lt | eq | gt
        · have := same k
          rw [Memory.read, if_pos rfl, read_below (wfFrom_cons.mpr ⟨Nat.le_refl j, hn'.2⟩) lt] at this
          exact absurd this hm'.2.2.1
        · exact eq
        · have := same j
          rw [read_below (wfFrom_cons.mpr ⟨Nat.le_refl k, hm'.2⟩) gt, Memory.read, if_pos rfl] at this
          exact absurd this.symm hn'.2.2.1
      subst keys
      have bytes : b = d := by simpa [Memory.read] using same k
      subst bytes
      congr 1
      refine ih hm'.2.2.2 hn'.2.2.2 fun a => ?_
      by_cases at_ : a = k
      · rw [read_below hm'.2.2.2 (by omega), read_below hn'.2.2.2 (by omega)]
      · simpa [Memory.read, Ne.symm at_] using same a

/-! ### Writing all the cells (43_line_encode.md R91) -/

/-- The loop over the first `n` cells. -/
theorem writeCells_loop (bs : List Byte) (m : Memory) (h : m.wf = true) (n : Nat) (hn : n ≤ 27) :
    ((List.range n).foldl (fun m i => m.write i (bs.getD i unlistedByte)) m).wf = true ∧
      ∀ x, ((List.range n).foldl (fun m i => m.write i (bs.getD i unlistedByte)) m).read x =
        if x < n then bs.getD x 0#8 else m.read x := by
  induction n with
  | zero => exact ⟨h, fun x => by simp⟩
  | succ n ih =>
    obtain ⟨wf, read⟩ := ih (by omega)
    rw [List.range_succ, List.foldl_append]
    refine ⟨wfFrom_write wf (Nat.zero_le _) (by omega) _, fun x => ?_⟩
    simp only [List.foldl_cons, List.foldl_nil]
    rw [read_write wf, read]
    rcases Nat.lt_trichotomy x n with lt | eq | gt
    · rw [if_neg (by omega), if_pos lt, if_pos (by omega)]
    · subst eq
      simp [unlistedByte]
    · rw [if_neg (by omega), if_neg (by omega), if_neg (by omega)]

theorem wf_writeCells (bs : List Byte) (m : Memory) (h : m.wf = true) : (writeCells bs m).wf = true :=
  (writeCells_loop bs m h 27 (Nat.le_refl _)).1

theorem read_writeCells (bs : List Byte) (m : Memory) (h : m.wf = true) (i : Nat) (hi : i < 27) :
    (writeCells bs m).read i = bs.getD i 0#8 := by
  have := (writeCells_loop bs m h 27 (Nat.le_refl _)).2 i
  rwa [if_pos hi] at this

/-- No cell above 26 exists. -/
theorem read_above {lo : Nat} {m : Memory} (h : Memory.wfFrom lo m = true) {a : Nat} (ge : 27 ≤ a) :
    m.read a = 0#8 := by
  induction m generalizing lo with
  | nil => rfl
  | cons c m ih =>
    obtain ⟨k, b⟩ := c
    rw [wfFrom_cons] at h
    rw [Memory.read, if_neg (by omega)]
    exact ih h.2.2.2

theorem wf_lineImage (bs : List Byte) : (lineImage bs).wf = true := wf_writeCells bs [] rfl

theorem read_lineImage (bs : List Byte) (i : Nat) (hi : i < 27) :
    (lineImage bs).read i = bs.getD i 0#8 := read_writeCells bs [] rfl i hi

/-- Writing every cell gives the same image whatever the canonical contents were: the loop of
43_line_encode.md R91 over the old LINE is `lineImage` (70_reset_and_hazards.md R122). -/
theorem writeCells_eq_lineImage (bs : List Byte) (m : Memory) (h : m.wf = true) :
    writeCells bs m = lineImage bs := by
  have written : Memory.wfFrom 0 (writeCells bs m) = true := wf_writeCells bs m h
  have image : Memory.wfFrom 0 (lineImage bs) = true := wf_lineImage bs
  refine eq_of_read_eq written image fun a => ?_
  rcases Nat.lt_or_ge a 27 with lt | ge
  · rw [read_writeCells bs m h a lt, read_lineImage bs a lt]
  · rw [read_above written ge, read_above image ge]

/-- Writing 0x00 to every cell leaves nothing listed (60_exceptions.md R100, R101). -/
theorem writeCells_zero (m : Memory) (h : m.wf = true) : writeCells [] m = lineCleared := by
  have written : Memory.wfFrom 0 (writeCells [] m) = true := wf_writeCells [] m h
  refine eq_of_read_eq written (n := lineCleared) (Eq.refl true) fun a => ?_
  rcases Nat.lt_or_ge a 27 with lt | ge
  · exact read_writeCells [] m h a lt
  · exact read_above written ge

@[simp] theorem read_lineCleared (i : Nat) : lineCleared.read i = 0#8 := rfl

@[simp] theorem wf_lineCleared : lineCleared.wf = true := rfl

end Sys2Proof.Laws
end

