-- ==== Sys2Proof/Laws/State.lean ====
section
/-! SUPPORT. The state's updates, field by field: `raiseAbsent`, `complete`, `completeLine` and `resetBlock` write
the block and leave the host's side, and what each leaves in every register (60_exceptions.md R100, R101;
70_reset_and_hazards.md R120). -/

namespace Sys2Proof.Laws

open Sys2Proof.Machine

section Updates

variable (c : Cause) (k : FrameResult) (w : FrameWord) (bs : List Byte) (s : State)

@[simp] theorem raiseAbsent_block : (raiseAbsent c s).block = absentBlock c := rfl
@[simp] theorem raiseAbsent_inputs : (raiseAbsent c s).inputs = s.inputs := rfl
@[simp] theorem raiseAbsent_hostGot : (raiseAbsent c s).hostGot = s.hostGot := rfl

@[simp] theorem complete_block : (complete k w s).block = frameBlock k w := rfl
@[simp] theorem complete_inputs : (complete k w s).inputs = s.inputs := rfl
@[simp] theorem complete_hostGot : (complete k w s).hostGot = s.hostGot := rfl

@[simp] theorem completeLine_block : (completeLine bs s).block = lineBlock bs := rfl
@[simp] theorem completeLine_inputs : (completeLine bs s).inputs = s.inputs := rfl
@[simp] theorem completeLine_hostGot : (completeLine bs s).hostGot = s.hostGot := rfl

@[simp] theorem resetBlock_block : (resetBlock s).block = Block.reset := rfl
@[simp] theorem resetBlock_inputs : (resetBlock s).inputs = s.inputs := rfl
@[simp] theorem resetBlock_hostGot : (resetBlock s).hostGot = s.hostGot := rfl

end Updates

section Registers

variable (c : Cause) (k : FrameResult) (w : FrameWord) (bs : List Byte)

@[simp] theorem absentBlock_resValid : (absentBlock c).resValid = 0#1 := rfl
@[simp] theorem absentBlock_resCause : (absentBlock c).resCause = c.code := rfl
@[simp] theorem absentBlock_resKind : (absentBlock c).resKind = 0#3 := rfl
@[simp] theorem absentBlock_resFrame : (absentBlock c).resFrame = 0#128 := rfl
@[simp] theorem absentBlock_line : (absentBlock c).line = lineCleared := rfl
@[simp] theorem absentBlock_lineLen : (absentBlock c).lineLen = 0#5 := rfl

@[simp] theorem frameBlock_resValid : (frameBlock k w).resValid = 1#1 := rfl
@[simp] theorem frameBlock_resCause : (frameBlock k w).resCause = 0#4 := rfl
@[simp] theorem frameBlock_resKind : (frameBlock k w).resKind = k.code := rfl
@[simp] theorem frameBlock_resFrame : (frameBlock k w).resFrame = w := rfl
@[simp] theorem frameBlock_line : (frameBlock k w).line = lineCleared := rfl
@[simp] theorem frameBlock_lineLen : (frameBlock k w).lineLen = 0#5 := rfl

@[simp] theorem lineBlock_resValid : (lineBlock bs).resValid = 1#1 := rfl
@[simp] theorem lineBlock_resCause : (lineBlock bs).resCause = 0#4 := rfl
@[simp] theorem lineBlock_resKind : (lineBlock bs).resKind = 4#3 := rfl
@[simp] theorem lineBlock_resFrame : (lineBlock bs).resFrame = 0#128 := rfl
@[simp] theorem lineBlock_line : (lineBlock bs).line = lineImage bs := by
  rw [lineBlock]
@[simp] theorem lineBlock_lineLen : (lineBlock bs).lineLen = BitVec.ofNat 5 bs.length := rfl

end Registers

end Sys2Proof.Laws
end

