-- ==== Sys2Proof/Laws/Checks.lean ====
section
/-! SUPPORT. One spec lemma per check and per pure function of the translator: what it answers on a valid
operand, and which cause it answers otherwise. Later proofs cite these and unfold none of the functions. -/

namespace Sys2Proof.Laws

open Sys2Proof.Machine Sys2Proof.Safety

/-! ### Checks -/

theorem idOk_iff (id : Identifier) : idOk id = true ↔ ValidIdentifier id := by
  obtain ⟨tag, v⟩ := id
  cases tag <;> exact decide_eq_true_iff

theorem idOk_eq_true {id : Identifier} (h : ValidIdentifier id) : idOk id = true := (idOk_iff id).mpr h

theorem idOk_eq_false {id : Identifier} (h : ¬ ValidIdentifier id) : idOk id = false := by
  rw [← Bool.not_eq_true, idOk_iff]
  exact h

theorem lengthOk_iff (n : BitVec 8) : lengthOk n = true ↔ n.toNat ≤ 8 := by
  simp [lengthOk]

theorem payloadOk_iff (n : BitVec 8) : payloadOk n = true ↔ n.toNat ≤ 8 := by
  simp [payloadOk]

theorem lengthOk_eq_true {n : BitVec 8} (h : n.toNat ≤ 8) : lengthOk n = true := (lengthOk_iff n).mpr h

theorem lengthOk_eq_false {n : BitVec 8} (h : 8 < n.toNat) : lengthOk n = false := by
  rw [← Bool.not_eq_true, lengthOk_iff]
  omega

theorem payloadOk_eq_true {n : BitVec 8} (h : n.toNat ≤ 8) : payloadOk n = true := (payloadOk_iff n).mpr h

theorem payloadOk_eq_false {n : BitVec 8} (h : 8 < n.toNat) : payloadOk n = false := by
  rw [← Bool.not_eq_true, payloadOk_iff]
  omega

/-! ### Identifier functions (40_identifier.md R60 to R64) -/

section Identifiers

variable {id : Identifier}

theorem newIdentifier_valid {tag : IdTag} {v : BitVec 32} (h : ValidIdentifier ⟨tag, v⟩) :
    newIdentifier tag v = .ok ⟨tag, v⟩ := by simp [newIdentifier, idOk_eq_true h]

theorem newIdentifier_invalid {tag : IdTag} {v : BitVec 32} (h : ¬ ValidIdentifier ⟨tag, v⟩) :
    newIdentifier tag v = .error .idRange := by simp [newIdentifier, idOk_eq_false h]

theorem toProtocolId_valid (h : ValidIdentifier id) : toProtocolId id = .ok id := by
  simp [toProtocolId, idOk_eq_true h]

theorem toProtocolId_invalid (h : ¬ ValidIdentifier id) : toProtocolId id = .error .idRange := by
  simp [toProtocolId, idOk_eq_false h]

theorem toDriverId_valid (h : ValidIdentifier id) : toDriverId id = .ok id := by
  simp [toDriverId, idOk_eq_true h]

theorem toDriverId_invalid (h : ¬ ValidIdentifier id) : toDriverId id = .error .idRange := by
  simp [toDriverId, idOk_eq_false h]

/-! ### Constructors (41_frame_construct.md R70, R72, R74, R76) -/

theorem pfData_valid {p : Payload} (h : ValidIdentifier id) (n : p.len.toNat ≤ 8) :
    pfData id p = .ok ⟨id, .data, p.len, p.held.take p.len.toNat⟩ := by
  simp [pfData, idOk_eq_true h, payloadOk_eq_true n]

theorem pfData_oversize {p : Payload} (h : ValidIdentifier id) (n : 8 < p.len.toNat) :
    pfData id p = .error .payloadCapacity := by
  simp [pfData, idOk_eq_true h, payloadOk_eq_false n]

theorem pfData_invalid (h : ¬ ValidIdentifier id) (p : Payload) : pfData id p = .error .idRange := by
  simp [pfData, idOk_eq_false h]

theorem pfRemote_valid {n : BitVec 8} (h : ValidIdentifier id) (le : n.toNat ≤ 8) :
    pfRemote id n = .ok ⟨id, .remote, n, []⟩ := by
  simp [pfRemote, idOk_eq_true h, lengthOk_eq_true le]

theorem pfRemote_oversize {n : BitVec 8} (h : ValidIdentifier id) (lt : 8 < n.toNat) :
    pfRemote id n = .error .lengthRange := by
  simp [pfRemote, idOk_eq_true h, lengthOk_eq_false lt]

theorem pfRemote_invalid (h : ¬ ValidIdentifier id) (n : BitVec 8) : pfRemote id n = .error .idRange := by
  simp [pfRemote, idOk_eq_false h]

theorem dfData_valid {p : Payload} (h : ValidIdentifier id) (n : p.len.toNat ≤ 8) :
    dfData id p = .ok ⟨id, .data, p.len, some ⟨p.len, p.held.take p.len.toNat⟩⟩ := by
  simp [dfData, idOk_eq_true h, payloadOk_eq_true n]

theorem dfData_oversize {p : Payload} (h : ValidIdentifier id) (n : 8 < p.len.toNat) :
    dfData id p = .error .payloadCapacity := by
  simp [dfData, idOk_eq_true h, payloadOk_eq_false n]

theorem dfData_invalid (h : ¬ ValidIdentifier id) (p : Payload) : dfData id p = .error .idRange := by
  simp [dfData, idOk_eq_false h]

theorem dfRemote_valid {n : BitVec 8} (h : ValidIdentifier id) (le : n.toNat ≤ 8) :
    dfRemote id n = .ok ⟨id, .remote, n, none⟩ := by
  simp [dfRemote, idOk_eq_true h, lengthOk_eq_true le]

theorem dfRemote_oversize {n : BitVec 8} (h : ValidIdentifier id) (lt : 8 < n.toNat) :
    dfRemote id n = .error .lengthRange := by
  simp [dfRemote, idOk_eq_true h, lengthOk_eq_false lt]

theorem dfRemote_invalid (h : ¬ ValidIdentifier id) (n : BitVec 8) : dfRemote id n = .error .idRange := by
  simp [dfRemote, idOk_eq_false h]

end Identifiers

/-! ### Translation (42_translate.md R80, R82) -/

theorem toProtocol_invalid {f : DriverFrame} (h : ¬ ValidIdentifier f.id) :
    toProtocol f = .error .idRange := by simp [toProtocol, toProtocolId_invalid h]

theorem toProtocol_valid {f : DriverFrame} (h : ValidIdentifier f.id) :
    toProtocol f = routeToProtocol f.id f := by simp [toProtocol, toProtocolId_valid h]

theorem toDriver_invalid {f : ProtocolFrame} (h : ¬ ValidIdentifier f.id) :
    toDriver f = .error .idRange := by simp [toDriver, toDriverId_invalid h]

theorem toDriver_valid {f : ProtocolFrame} (h : ValidIdentifier f.id) :
    toDriver f = routeToDriver f.id f := by simp [toDriver, toDriverId_valid h]

@[simp] theorem castToLengthCode_eq (n : BitVec 8) : castToLengthCode n = n := by
  simp [castToLengthCode]

/-! ### Line encoding (43_line_encode.md R90) -/

theorem encodeLine_valid (cfg : LineConfig) {f : ProtocolFrame} (h : ValidIdentifier f.id)
    (n : f.len.toNat ≤ 8) : encodeLine cfg f = .ok (renderLine cfg f) := by
  simp [encodeLine, idOk_eq_true h, lengthOk_eq_true n]

theorem encodeLine_oversize (cfg : LineConfig) {f : ProtocolFrame} (h : ValidIdentifier f.id)
    (n : 8 < f.len.toNat) : encodeLine cfg f = .error (lengthCause f.kind) := by
  simp [encodeLine, idOk_eq_true h, lengthOk_eq_false n]

theorem encodeLine_invalid (cfg : LineConfig) {f : ProtocolFrame} (h : ¬ ValidIdentifier f.id) :
    encodeLine cfg f = .error .idRange := by
  simp [encodeLine, idOk_eq_false h]

/-! ### How an operation ends -/

section Conclude

variable {α : Type} (success : α → State → State) (s : State)

theorem conclude_ok (x : α) : conclude (.ok x) success s = .next (success x s) := rfl

theorem conclude_error (c : Cause) : conclude (.error c) success s = .next (raiseAbsent c s) := rfl

/-- An operation always completes: with its success write or with an absence (60_exceptions.md R105). -/
theorem conclude_cases (r : Except Cause α) :
    (∃ x, r = .ok x ∧ conclude r success s = .next (success x s)) ∨
      ∃ c, r = .error c ∧ conclude r success s = .next (raiseAbsent c s) := by
  cases r with
  | ok x => exact .inl ⟨x, rfl, rfl⟩
  | error c => exact .inr ⟨c, rfl, rfl⟩

end Conclude

/-! ### What a result and an absence leave (60_exceptions.md R100, R101) -/

theorem holdsAbsence_raiseAbsent (c : Cause) (s : State) : HoldsAbsence (raiseAbsent c s).block c.code :=
  ⟨rfl, rfl, rfl, rfl, fun i _ => read_lineCleared i, rfl⟩

theorem holdsFrame_complete (k : FrameResult) (w : FrameWord) (s : State) :
    HoldsFrame (complete k w s).block k.code w :=
  ⟨rfl, rfl, rfl, rfl, fun i _ => read_lineCleared i, rfl⟩

theorem holdsLine_completeLine (bs : List Byte) (h : bs.length ≤ 27) (s : State) :
    HoldsLine (completeLine bs s).block bs := by
  refine ⟨rfl, rfl, rfl, rfl, ?_, fun i hi => ?_⟩
  · simp only [completeLine_block, lineBlock_lineLen, BitVec.toNat_ofNat]
    omega
  · rw [completeLine_block, lineBlock_line, read_lineImage bs i hi]

theorem hostSideKept_raiseAbsent (c : Cause) (s : State) : HostSideKept s (raiseAbsent c s) := ⟨rfl, rfl⟩

theorem hostSideKept_complete (k : FrameResult) (w : FrameWord) (s : State) :
    HostSideKept s (complete k w s) := ⟨rfl, rfl⟩

theorem hostSideKept_completeLine (bs : List Byte) (s : State) : HostSideKept s (completeLine bs s) :=
  ⟨rfl, rfl⟩

end Sys2Proof.Laws
end

