-- ==== Sys2Proof/Laws/Words.lean ====
section
/-! SUPPORT. The result formats and the readings in the bit-by-bit terms of Safety.WordIs, and the round trip
between them (30_encoding.md R43, R44, R45). -/

namespace Sys2Proof.Laws

open Sys2Proof.Machine Sys2Proof.Safety

@[simp] theorem bitOfTag_eq_ideBit (t : IdTag) : bitOfTag t = ideBit t := by cases t <;> rfl

@[simp] theorem bitOfKind_eq_rtrBit (k : FrameKind) : bitOfKind k = rtrBit k := by cases k <;> rfl

/-- An assembled word has the fields it was assembled from. -/
theorem wordIs_assembleWord (f : WordFields) :
    WordIs (assembleWord f) f.id f.ide f.rtr f.pp f.len f.plen fun i => f.data.extractLsb' (8 * i) 8 :=
  ⟨fieldId_assembleWord f, fieldIde_assembleWord f, fieldRtr_assembleWord f, fieldPp_assembleWord f,
    reservedLow_assembleWord f, fieldLen_assembleWord f, fieldPlen_assembleWord f,
    reservedHigh_assembleWord f, fun i _ => dataByte_assembleWord f i⟩

/-- An assembled word whose payload half is packed from `bs`. -/
theorem wordIs_packed (f : WordFields) (bs : List Byte) (h : f.data = packData bs) :
    WordIs (assembleWord f) f.id f.ide f.rtr f.pp f.len f.plen (byteAt bs) := by
  obtain ⟨a, b, c, d, e, g, i, j, -⟩ := wordIs_assembleWord f
  exact ⟨a, b, c, d, e, g, i, j, fun k hk => dataByte_packData f bs h k hk⟩

theorem byteAt_nil : byteAt [] = fun _ => 0#8 := rfl

theorem wordIs_idWord (id : Identifier) :
    WordIs (idWord id) id.value (ideBit id.tag) 0#1 0#1 0#8 0#8 fun _ => 0#8 := by
  have := wordIs_packed { id := id.value, ide := bitOfTag id.tag } [] rfl
  rw [byteAt_nil] at this
  simpa [idWord] using this

theorem wordIs_protocolWord_data {f : ProtocolFrame} (k : f.kind = .data)
    (n : f.payload.length = f.len.toNat) :
    WordIs (protocolWord f) f.id.value (ideBit f.id.tag) 0#1 0#1 f.len 0#8 (byteAt f.payload) := by
  have := wordIs_packed
    { id := f.id.value, ide := bitOfTag f.id.tag, rtr := bitOfKind f.kind, len := f.len
      data := packData f.payload } f.payload rfl
  simpa [protocolWord, k, rtrBit, ← n] using this

theorem wordIs_protocolWord_remote {f : ProtocolFrame} (k : f.kind = .remote) :
    WordIs (protocolWord f) f.id.value (ideBit f.id.tag) 1#1 0#1 f.len 0#8 fun _ => 0#8 := by
  have := wordIs_packed { id := f.id.value, ide := bitOfTag f.id.tag, rtr := bitOfKind f.kind, len := f.len }
    [] rfl
  rw [byteAt_nil] at this
  simpa [protocolWord, k, rtrBit] using this

/-- The protocol result word of a valid frame (30_encoding.md R44). -/
theorem wordIs_protocolWord {f : ProtocolFrame} (h : ValidProtocolFrame f) :
    WordIs (protocolWord f) f.id.value (ideBit f.id.tag) (rtrBit f.kind) 0#1 f.len 0#8
      (byteAt f.payload) := by
  obtain ⟨id, kind, len, payload⟩ := f
  obtain ⟨-, -, shape⟩ := h
  cases kind with
  | data => exact wordIs_protocolWord_data rfl shape
  | remote =>
    have empty : payload = [] := shape
    subst empty
    exact wordIs_protocolWord_remote rfl

theorem wordIs_driverWord_some {f : DriverFrame} {p : Payload} (h : f.payload = some p)
    (n : p.held.length ≤ p.len.toNat) :
    WordIs (driverWord f) f.id.value (ideBit f.id.tag) (rtrBit f.kind) 1#1 f.dlc p.len
      (byteAt p.held) := by
  have := wordIs_packed
    { id := f.id.value, ide := bitOfTag f.id.tag, rtr := bitOfKind f.kind, len := f.dlc
      pp := 1#1, plen := p.len, data := packData p.held } p.held rfl
  simpa [driverWord, h, List.take_of_length_le n] using this

theorem wordIs_driverWord_none {f : DriverFrame} (h : f.payload = none) :
    WordIs (driverWord f) f.id.value (ideBit f.id.tag) (rtrBit f.kind) 0#1 f.dlc 0#8 fun _ => 0#8 := by
  have := wordIs_packed
    { id := f.id.value, ide := bitOfTag f.id.tag, rtr := bitOfKind f.kind, len := f.dlc
      pp := 0#1 } [] rfl
  rw [byteAt_nil] at this
  simpa [driverWord, h] using this

/-- A valid ProtocolFrame is a well-formed operand. -/
theorem wf_of_valid {f : ProtocolFrame} (h : ValidProtocolFrame f) : f.wf = true := by
  obtain ⟨id, kind, len, payload⟩ := f
  obtain ⟨-, small, shape⟩ := h
  have small' : len.toNat ≤ 8 := small
  cases kind with
  | data =>
    have count : payload.length = len.toNat := shape
    simp [ProtocolFrame.wf, protocolPayloadLength, small', count]
  | remote =>
    have empty : payload = [] := shape
    simp [ProtocolFrame.wf, protocolPayloadLength, empty]

theorem protocolPayloadLength_le (k : FrameKind) (n : BitVec 8) : protocolPayloadLength k n ≤ 8 := by
  unfold protocolPayloadLength
  cases k
  · by_cases h : n.toNat ≤ Config.maxDlc
    · simp [h]
    · simp [h]
  · exact Nat.zero_le 8

/-! ### Readings of a word given bit by bit -/

section Readings

variable {w : FrameWord} {id : BitVec 32} {tag : IdTag} {kind : FrameKind} {ide rtr pp : BitVec 1}
  {len plen : BitVec 8} {data : Nat → Byte}

theorem tagOfBit_ideBit (t : IdTag) : tagOfBit (ideBit t) = t := by cases t <;> decide

theorem kindOfBit_rtrBit (k : FrameKind) : kindOfBit (rtrBit k) = k := by cases k <;> decide

theorem readIdentifier_of_wordIs (h : WordIs w id (ideBit tag) rtr pp len plen data) :
    readIdentifier w = ⟨tag, id⟩ := by
  obtain ⟨i, t, -⟩ := h
  rw [readIdentifier, fieldIde, fieldId, i, t, tagOfBit_ideBit]

/-- The first bytes of a word, as many as the list has, are the list. -/
theorem dataBytes_of_wordIs {bs : List Byte} (h : WordIs w id ide rtr pp len plen (byteAt bs))
    (n : bs.length ≤ 8) : dataBytes w bs.length = bs := by
  obtain ⟨-, -, -, -, -, -, -, -, bytes⟩ := h
  apply List.ext_getElem
  · simp
  · intro i hi hb
    have byte := bytes i (by omega)
    simp [dataBytes, dataByte, byte, byteAt, hb]

theorem readProtocol_of_wordIs {f : ProtocolFrame} (wf : f.wf = true)
    (h : WordIs w f.id.value (ideBit f.id.tag) (rtrBit f.kind) pp f.len plen (byteAt f.payload)) :
    readProtocol w = f := by
  obtain ⟨fid, fkind, flen, fpayload⟩ := f
  have count : fpayload.length = protocolPayloadLength fkind flen := by simpa [ProtocolFrame.wf] using wf
  have small : fpayload.length ≤ 8 := by
    rw [count]
    exact protocolPayloadLength_le fkind flen
  have identifier := readIdentifier_of_wordIs h
  have bytes := dataBytes_of_wordIs h small
  obtain ⟨-, -, r, -, -, l, -⟩ := h
  have kindEq : kindOfBit (fieldRtr w) = fkind := by rw [fieldRtr, r]; exact kindOfBit_rtrBit fkind
  have lenEq : fieldLen w = flen := l
  simp only [readProtocol, identifier, kindEq, lenEq, ← count, bytes]

theorem readPayload_of_wordIs {p : Payload} (wf : p.wf = true)
    (h : WordIs w id ide rtr pp len p.len (byteAt p.held)) : readPayload w = p := by
  obtain ⟨plen, held⟩ := p
  have count : held.length = min plen.toNat 8 := by
    simpa [Payload.wf, Config.payloadCap] using wf
  have small : held.length ≤ 8 := by omega
  have bytes := dataBytes_of_wordIs h small
  obtain ⟨-, -, -, -, -, -, l, -⟩ := h
  have lenEq : fieldPlen w = plen := l
  simp only [readPayload, lenEq, Config.payloadCap, ← count, bytes]

theorem readDriver_of_wordIs_some {f : DriverFrame} {p : Payload} (present : f.payload = some p)
    (wf : p.wf = true)
    (h : WordIs w f.id.value (ideBit f.id.tag) (rtrBit f.kind) 1#1 f.dlc p.len (byteAt p.held)) :
    readDriver w = f := by
  obtain ⟨fid, fkind, fdlc, fpayload⟩ := f
  have present' : fpayload = some p := present
  subst present'
  have identifier := readIdentifier_of_wordIs h
  have payload := readPayload_of_wordIs wf h
  obtain ⟨-, -, r, o, -, l, -⟩ := h
  have kindEq : kindOfBit (fieldRtr w) = fkind := by rw [fieldRtr, r]; exact kindOfBit_rtrBit fkind
  have lenEq : fieldLen w = fdlc := l
  have ppEq : fieldPp w = 1#1 := o
  simp [readDriver, identifier, kindEq, lenEq, ppEq, payload]

theorem readDriver_of_wordIs_none {f : DriverFrame} (absent : f.payload = none)
    (h : WordIs w f.id.value (ideBit f.id.tag) (rtrBit f.kind) 0#1 f.dlc plen data) :
    readDriver w = f := by
  obtain ⟨fid, fkind, fdlc, fpayload⟩ := f
  have absent' : fpayload = none := absent
  subst absent'
  have identifier := readIdentifier_of_wordIs h
  obtain ⟨-, -, r, o, -, l, -⟩ := h
  have kindEq : kindOfBit (fieldRtr w) = fkind := by rw [fieldRtr, r]; exact kindOfBit_rtrBit fkind
  have lenEq : fieldLen w = fdlc := l
  have ppEq : fieldPp w = 0#1 := o
  simp [readDriver, identifier, kindEq, lenEq, ppEq]

end Readings

/-! ### Well-formed readings -/

theorem wf_readPayload (w : FrameWord) : (readPayload w).wf = true := by
  simp [Payload.wf, readPayload]

theorem wf_readDriver (w : FrameWord) : (readDriver w).wf = true := by
  unfold DriverFrame.wf readDriver
  by_cases h : fieldPp w = 0#1
  · simp [h]
  · simp [h, wf_readPayload]

theorem wf_readProtocol (w : FrameWord) : (readProtocol w).wf = true := by
  simp [ProtocolFrame.wf, readProtocol]

/-- A frame word is decided by its fields: two words with the same fields are the same word. -/
theorem eq_of_wordIs {v w : FrameWord} {id : BitVec 32} {ide rtr pp : BitVec 1} {len plen : BitVec 8}
    {data : Nat → Byte} (hv : WordIs v id ide rtr pp len plen data)
    (hw : WordIs w id ide rtr pp len plen data) : v = w := by
  obtain ⟨v₀, v₁, v₂, v₃, v₄, v₅, v₆, v₇, v₈⟩ := hv
  obtain ⟨w₀, w₁, w₂, w₃, w₄, w₅, w₆, w₇, w₈⟩ := hw
  have field {st n : Nat} (same : v.extractLsb' st n = w.extractLsb' st n) (j : Nat) (ge : st ≤ j)
      (lt : j < st + n) : v.getLsbD j = w.getLsbD j := by
    have bit := congrArg (fun x => x.getLsbD (j - st)) same
    simpa [BitVec.getLsbD_extractLsb', show j - st < n by omega, Nat.add_sub_cancel' ge] using bit
  apply BitVec.eq_of_getLsbD_eq
  intro j hj
  by_cases a : j < 32
  · exact field (v₀.trans w₀.symm) j (by omega) (by omega)
  by_cases b : j < 33
  · exact field (v₁.trans w₁.symm) j (by omega) (by omega)
  by_cases c : j < 34
  · exact field (v₂.trans w₂.symm) j (by omega) (by omega)
  by_cases d : j < 35
  · exact field (v₃.trans w₃.symm) j (by omega) (by omega)
  by_cases e : j < 40
  · exact field (v₄.trans w₄.symm) j (by omega) (by omega)
  by_cases f : j < 48
  · exact field (v₅.trans w₅.symm) j (by omega) (by omega)
  by_cases g : j < 56
  · exact field (v₆.trans w₆.symm) j (by omega) (by omega)
  by_cases h : j < 64
  · exact field (v₇.trans w₇.symm) j (by omega) (by omega)
  · exact field ((v₈ ((j - 64) / 8) (by omega)).trans (w₈ ((j - 64) / 8) (by omega)).symm) j (by omega)
      (by omega)

end Sys2Proof.Laws
end

