-- ==== Sys2Proof/Laws/Decode.lean ====
section
/-! SUPPORT. The decoder, OP value by OP value (30_encoding.md R40, R52): one equation each, the case split over
the sixteen values, and that what it gives is well-formed. -/

namespace Sys2Proof.Laws

open Sys2Proof.Machine Sys2Proof.Safety

section Values

variable (w : FrameWord)

@[simp] theorem decode_idStd : decode ⟨0x1#4, w⟩ = .ok (.idStd (readRawValue w)) := rfl
@[simp] theorem decode_idExt : decode ⟨0x2#4, w⟩ = .ok (.idExt (readRawValue w)) := rfl
@[simp] theorem decode_toProtocolId :
    decode ⟨0x3#4, w⟩ = .ok (.toProtocolId (readIdentifier w)) := rfl
@[simp] theorem decode_toDriverId : decode ⟨0x4#4, w⟩ = .ok (.toDriverId (readIdentifier w)) := rfl
@[simp] theorem decode_pfNewData :
    decode ⟨0x5#4, w⟩ = .ok (.pfNewData (readIdentifier w) (readPayload w)) := rfl
@[simp] theorem decode_pfNewRemote :
    decode ⟨0x6#4, w⟩ = .ok (.pfNewRemote (readIdentifier w) (readLength w)) := rfl
@[simp] theorem decode_dfNewData :
    decode ⟨0x7#4, w⟩ = .ok (.dfNewData (readIdentifier w) (readPayload w)) := rfl
@[simp] theorem decode_dfNewRemote :
    decode ⟨0x8#4, w⟩ = .ok (.dfNewRemote (readIdentifier w) (readLength w)) := rfl
@[simp] theorem decode_toProtocol : decode ⟨0x9#4, w⟩ = .ok (.toProtocol (readDriver w)) := rfl
@[simp] theorem decode_toDriver : decode ⟨0xA#4, w⟩ = .ok (.toDriver (readProtocol w)) := rfl
@[simp] theorem decode_encodeLine : decode ⟨0xB#4, w⟩ = .ok (.encodeLine (readProtocol w)) := rfl

end Values

/-- The assigned OP values (30_encoding.md R40). -/
def assignedOps : List OpCode :=
  [0x1#4, 0x2#4, 0x3#4, 0x4#4, 0x5#4, 0x6#4, 0x7#4, 0x8#4, 0x9#4, 0xA#4, 0xB#4]

/-- The reserved OP values (30_encoding.md R52). -/
def reservedOps : List OpCode := [0x0#4, 0xC#4, 0xD#4, 0xE#4, 0xF#4]

theorem decode_reserved (op : OpCode) (h : op ∈ reservedOps) (w : FrameWord) :
    decode ⟨op, w⟩ = .error (.reservedOp op) := by
  simp only [reservedOps, List.mem_cons, List.not_mem_nil, or_false] at h
  rcases h with rfl | rfl | rfl | rfl | rfl <;> rfl

/-- Every OP value is reserved or assigned. -/
theorem reserved_or_assigned (op : OpCode) : op ∈ reservedOps ∨ op ∈ assignedOps := by
  revert op; decide

/-- What a decoded operation is: its OP is assigned, its operand well-formed, and the encoder gives the OP
back. -/
theorem decode_ok {c : Command} {i : Instr} (h : decode c = .ok i) :
    c.op ∈ assignedOps ∧ i.wf = true ∧ (encode i).op = c.op := by
  obtain ⟨op, w⟩ := c
  rcases reserved_or_assigned op with reserved | assigned
  · rw [decode_reserved op reserved] at h
    exact absurd h (by simp)
  · refine ⟨assigned, ?_⟩
    simp only [assignedOps, List.mem_cons, List.not_mem_nil, or_false] at assigned
    rcases assigned with rfl | rfl | rfl | rfl | rfl | rfl | rfl | rfl | rfl | rfl | rfl <;>
      (cases h; exact ⟨by simp [Instr.wf, wf_readPayload, wf_readDriver, wf_readProtocol], rfl⟩)

/-- An assigned OP decodes. -/
theorem decode_assigned (op : OpCode) (h : op ∈ assignedOps) (w : FrameWord) :
    ∃ i, decode ⟨op, w⟩ = .ok i := by
  simp only [assignedOps, List.mem_cons, List.not_mem_nil, or_false] at h
  rcases h with rfl | rfl | rfl | rfl | rfl | rfl | rfl | rfl | rfl | rfl | rfl <;> exact ⟨_, rfl⟩

/-! ### Readings in the terms of Safety -/

theorem identifierOf_readIdentifier (w : FrameWord) : IdentifierOf w (readIdentifier w) := by
  refine ⟨?_, rfl⟩
  rw [← bitOfTag_eq_ideBit]
  exact bitOfTag_tagOfBit _

theorem bytesOf_dataBytes (w : FrameWord) (n : Nat) : BytesOf w (dataBytes w n) := fun i hi =>
  getElem?_dataBytes w n i (by simpa using hi)

theorem payloadOf_readPayload (w : FrameWord) : PayloadOf w (readPayload w) :=
  ⟨rfl, by simp [readPayload], bytesOf_dataBytes w _⟩

theorem rtrBit_kindOfBit (b : BitVec 1) : rtrBit (kindOfBit b) = b := by
  revert b; decide

end Sys2Proof.Laws
end

