-- ==== Sys2Proof/Laws/Line.lean ====
section
/-! SUPPORT. The rendered line: its length, the byte at every position (30_encoding.md R49, R50), the alphabet of
its bytes, and that hex digits determine what they render. -/

namespace Sys2Proof.Laws

open Sys2Proof.Machine Sys2Proof.Safety

/-! ### Digits -/

/-- A hex digit determines its nibble, in either letter case. -/
theorem hexDigit_injective (cfg : LineConfig) (a b : BitVec 4) (h : hexDigit cfg a = hexDigit cfg b) :
    a = b := by
  have plain (v : BitVec 4) : hexDigit cfg v = hexDigit ⟨slcanMarker, cfg.upperHex⟩ v := rfl
  rw [plain, plain] at h
  generalize cfg.upperHex = upper at h
  cases upper <;> revert a b <;> decide

/-- Every hex digit of the default configuration is a line byte (30_encoding.md R47). -/
theorem lineByte_hexDigit (v : BitVec 4) : lineByte (hexDigit defaultLine v) = true := by
  revert v; decide

/-- Every marker of the default configuration is a line byte (30_encoding.md R48). -/
theorem lineByte_marker (t : IdTag) (k : FrameKind) : lineByte (defaultLine.marker t k) = true := by
  cases t <;> cases k <;> decide

/-- No line byte is the terminator. -/
theorem ne_terminator_of_lineByte {b : Byte} (h : lineByte b = true) : b ≠ 0x0D#8 := by
  rintro rfl
  exact absurd h (by decide)

/-- No line byte is 0x00. -/
theorem ne_zero_of_lineByte {b : Byte} (h : lineByte b = true) : b ≠ 0x00#8 := by
  rintro rfl
  exact absurd h (by decide)

@[simp] theorem idDigitCount_eq (t : IdTag) : idDigitCount t = digitsOf t := by cases t <;> rfl

@[simp] theorem length_idDigits (cfg : LineConfig) (id : Identifier) :
    (idDigits cfg id).length = digitsOf id.tag := by simp [idDigits]

/-- Identifier digit `k`, most significant first (30_encoding.md R49). -/
theorem getElem?_idDigits (cfg : LineConfig) (id : Identifier) (k : Nat) (hk : k < digitsOf id.tag) :
    (idDigits cfg id)[k]? =
      some (hexDigit cfg (id.value.extractLsb' (4 * (digitsOf id.tag - 1 - k)) 4)) := by
  simp [idDigits, hk]

theorem length_flatMap_byteDigits (cfg : LineConfig) (bs : List Byte) :
    (bs.flatMap (byteDigits cfg)).length = 2 * bs.length := by
  induction bs with
  | nil => rfl
  | cons b bs ih => rw [List.flatMap_cons, List.length_append, ih, byteDigits]; simp; omega

/-- The two digits of payload byte `i` (20_memory.md R32). -/
theorem getElem?_flatMap_byteDigits (cfg : LineConfig) (bs : List Byte) (i : Nat) (hi : i < bs.length) :
    (bs.flatMap (byteDigits cfg))[2 * i]? = some (hexDigit cfg ((byteAt bs i).extractLsb' 4 4)) ∧
      (bs.flatMap (byteDigits cfg))[2 * i + 1]? =
        some (hexDigit cfg ((byteAt bs i).extractLsb' 0 4)) := by
  induction bs generalizing i with
  | nil => exact absurd hi (Nat.not_lt_zero i)
  | cons b bs ih =>
    cases i with
    | zero => exact ⟨rfl, rfl⟩
    | succ i => exact ih i (Nat.lt_of_succ_lt_succ hi)

/-! ### The whole line -/

section Rendered

variable (cfg : LineConfig) {f : ProtocolFrame}

/-- The payload digits of a data frame whose payload is as long as its length says. -/
theorem payloadDigits_data (k : f.kind = .data) (n : f.payload.length = f.len.toNat) :
    payloadDigits cfg f = f.payload.flatMap (byteDigits cfg) := by
  simp [payloadDigits, k, ← n]

theorem payloadDigits_remote (k : f.kind = .remote) : payloadDigits cfg f = [] := by
  simp [payloadDigits, k]

/-- `line_len` (30_encoding.md R50). -/
theorem length_renderLine (h : ValidProtocolFrame f) :
    (renderLine cfg f).length = lineLength f.id.tag f.kind f.len.toNat := by
  obtain ⟨id, kind, len, payload⟩ := f
  obtain ⟨-, -, shape⟩ := h
  cases kind with
  | data =>
    have count : payload.length = len.toNat := shape
    simp only [renderLine, payloadDigits_data cfg (f := ⟨id, .data, len, payload⟩) rfl count]
    simp only [List.cons_append, List.length_cons, List.length_append, length_idDigits,
      length_flatMap_byteDigits, List.length_nil, lineLength, count]
    omega
  | remote =>
    simp only [renderLine, payloadDigits_remote cfg (f := ⟨id, .remote, len, payload⟩) rfl]
    simp [lineLength]

/-- Every line has 6 to 27 bytes (30_encoding.md R50). -/
theorem lineLength_bounds (h : ValidProtocolFrame f) :
    6 ≤ lineLength f.id.tag f.kind f.len.toNat ∧ lineLength f.id.tag f.kind f.len.toNat ≤ 27 := by
  obtain ⟨⟨tag, v⟩, kind, len, payload⟩ := f
  obtain ⟨-, small, -⟩ := h
  have small' : len.toNat ≤ 8 := small
  cases tag <;> cases kind <;> simp [lineLength, digitsOf] <;> omega

/-- The bytes before the payload digits (30_encoding.md R49). -/
theorem renderLine_eq (f : ProtocolFrame) :
    renderLine cfg f = cfg.marker f.id.tag f.kind ::
      (idDigits cfg f.id ++ (hexDigit cfg (f.len.extractLsb' 0 4) ::
        (payloadDigits cfg f ++ [0x0D#8]))) := by
  simp [renderLine]

theorem getElem?_renderLine_marker (f : ProtocolFrame) :
    (renderLine cfg f)[0]? = some (cfg.marker f.id.tag f.kind) := by
  rw [renderLine_eq]; rfl

theorem getElem?_renderLine_id (f : ProtocolFrame) (k : Nat) (hk : k < digitsOf f.id.tag) :
    (renderLine cfg f)[1 + k]? =
      some (hexDigit cfg (f.id.value.extractLsb' (4 * (digitsOf f.id.tag - 1 - k)) 4)) := by
  rw [renderLine_eq, Nat.add_comm, List.getElem?_cons_succ, List.getElem?_append_left (by simpa using hk),
    getElem?_idDigits cfg f.id k hk]

theorem getElem?_renderLine_length (f : ProtocolFrame) :
    (renderLine cfg f)[digitsOf f.id.tag + 1]? = some (hexDigit cfg (f.len.extractLsb' 0 4)) := by
  rw [renderLine_eq, List.getElem?_cons_succ, List.getElem?_append_right (by simp)]
  simp

theorem getElem?_renderLine_payload (k : f.kind = .data) (n : f.payload.length = f.len.toNat) (i : Nat)
    (hi : i < f.len.toNat) :
    (renderLine cfg f)[digitsOf f.id.tag + 2 + 2 * i]? =
        some (hexDigit cfg ((byteAt f.payload i).extractLsb' 4 4)) ∧
      (renderLine cfg f)[digitsOf f.id.tag + 3 + 2 * i]? =
        some (hexDigit cfg ((byteAt f.payload i).extractLsb' 0 4)) := by
  obtain ⟨high, low⟩ := getElem?_flatMap_byteDigits cfg f.payload i (by omega)
  have skip (j : Nat) (hj : j < 2 * f.payload.length) :
      (renderLine cfg f)[digitsOf f.id.tag + 2 + j]? = (f.payload.flatMap (byteDigits cfg))[j]? := by
    rw [renderLine_eq, payloadDigits_data cfg k n,
      show digitsOf f.id.tag + 2 + j = (digitsOf f.id.tag + (j + 1)) + 1 by omega,
      List.getElem?_cons_succ, List.getElem?_append_right (by simp)]
    simp only [length_idDigits, Nat.add_sub_cancel_left, List.getElem?_cons_succ]
    exact List.getElem?_append_left (by rwa [length_flatMap_byteDigits])
  constructor
  · rw [skip (2 * i) (by omega), high]
  · rw [show digitsOf f.id.tag + 3 + 2 * i = digitsOf f.id.tag + 2 + (2 * i + 1) by omega,
      skip (2 * i + 1) (by omega), low]

theorem getLast?_renderLine (f : ProtocolFrame) : (renderLine cfg f).getLast? = some 0x0D#8 :=
  List.getLast?_concat

/-- Before the terminator every byte of a line is a marker letter or an upper-case hex digit
(43_line_encode.md R92). -/
theorem lineByte_of_mem_dropLast (f : ProtocolFrame) (c : Byte)
    (h : c ∈ (renderLine defaultLine f).dropLast) : lineByte c = true := by
  have payload (bs : List Byte) (c : Byte) (hc : c ∈ bs.flatMap (byteDigits defaultLine)) :
      lineByte c = true := by
    obtain ⟨b, -, hb⟩ := List.mem_flatMap.mp hc
    rcases List.mem_pair.mp hb with rfl | rfl <;> exact lineByte_hexDigit _
  rw [renderLine, List.dropLast_concat] at h
  rcases List.mem_append.mp h with h | h
  · rcases List.mem_append.mp h with h | h
    · rcases List.mem_cons.mp h with rfl | h
      · exact lineByte_marker _ _
      · obtain ⟨k, -, rfl⟩ := List.mem_map.mp h
        exact lineByte_hexDigit _
    · rw [List.mem_singleton.mp h]
      exact lineByte_hexDigit _
  · unfold payloadDigits at h
    split at h
    · exact payload _ c h
    · exact absurd h (List.not_mem_nil)

end Rendered

end Sys2Proof.Laws
end

