-- ==== Sys2Proof/Laws/Exec.lean ====
section
/-! SUPPORT. What an operation can do, said once: it ends in an absence with one of three causes, or leaves a valid
identifier, a valid frame or the line of a valid frame (60_exceptions.md R100, R101). -/

namespace Sys2Proof.Laws

open Sys2Proof.Machine Sys2Proof.Safety

/-- The DriverFrame the block makes of a valid ProtocolFrame (41_frame_construct.md R74, R76). -/
def driverOf (f : ProtocolFrame) : DriverFrame :=
  match f.kind with
  | .data => ⟨f.id, .data, f.len, some ⟨f.len, f.payload⟩⟩
  | .remote => ⟨f.id, .remote, f.len, none⟩

/-- The payload a well-formed payload argument of at most 8 bytes holds. -/
theorem length_held {p : Payload} (wf : p.wf = true) (n : p.len.toNat ≤ 8) :
    p.held.length = p.len.toNat := by
  have count : p.held.length = min p.len.toNat 8 := by simpa [Payload.wf] using wf
  omega

/-- `pf_data` of a well-formed payload: a valid data frame, or one of two causes. -/
theorem pfData_cases (id : Identifier) {p : Payload} (wf : p.wf = true) :
    (∃ f, pfData id p = .ok f ∧ ValidProtocolFrame f ∧ f = ⟨id, .data, p.len, p.held⟩) ∨
      pfData id p = .error .idRange ∨ pfData id p = .error .payloadCapacity := by
  by_cases h : ValidIdentifier id
  · rcases Nat.lt_or_ge 8 p.len.toNat with big | small
    · exact .inr (.inr (pfData_oversize h big))
    · have count := length_held wf small
      refine .inl ⟨_, pfData_valid h small, ⟨h, small, ?_⟩, ?_⟩
      · simp [count]
      · simp [← count]
  · exact .inr (.inl (pfData_invalid h p))

/-- `pf_remote`: a valid remote frame, or one of two causes. -/
theorem pfRemote_cases (id : Identifier) (n : BitVec 8) :
    (∃ f, pfRemote id n = .ok f ∧ ValidProtocolFrame f ∧ f = ⟨id, .remote, n, []⟩) ∨
      pfRemote id n = .error .idRange ∨ pfRemote id n = .error .lengthRange := by
  by_cases h : ValidIdentifier id
  · rcases Nat.lt_or_ge 8 n.toNat with big | small
    · exact .inr (.inr (pfRemote_oversize h big))
    · exact .inl ⟨_, pfRemote_valid h small, ⟨h, small, rfl⟩, rfl⟩
  · exact .inr (.inl (pfRemote_invalid h n))

/-- `df_data` of a well-formed payload: the driver frame of a valid data frame, or one of two causes. -/
theorem dfData_cases (id : Identifier) {p : Payload} (wf : p.wf = true) :
    (∃ f, dfData id p = .ok (driverOf f) ∧ ValidProtocolFrame f ∧ f = ⟨id, .data, p.len, p.held⟩) ∨
      dfData id p = .error .idRange ∨ dfData id p = .error .payloadCapacity := by
  by_cases h : ValidIdentifier id
  · rcases Nat.lt_or_ge 8 p.len.toNat with big | small
    · exact .inr (.inr (dfData_oversize h big))
    · have count := length_held wf small
      refine .inl ⟨⟨id, .data, p.len, p.held⟩, ?_, ⟨h, small, count⟩, rfl⟩
      rw [dfData_valid h small, List.take_of_length_le (by omega)]
      rfl
  · exact .inr (.inl (dfData_invalid h p))

/-- `df_remote`: the driver frame of a valid remote frame, or one of two causes. -/
theorem dfRemote_cases (id : Identifier) (n : BitVec 8) :
    (∃ f, dfRemote id n = .ok (driverOf f) ∧ ValidProtocolFrame f ∧ f = ⟨id, .remote, n, []⟩) ∨
      dfRemote id n = .error .idRange ∨ dfRemote id n = .error .lengthRange := by
  by_cases h : ValidIdentifier id
  · rcases Nat.lt_or_ge 8 n.toNat with big | small
    · exact .inr (.inr (dfRemote_oversize h big))
    · exact .inl ⟨⟨id, .remote, n, []⟩, dfRemote_valid h small, ⟨h, small, rfl⟩, rfl⟩
  · exact .inr (.inl (dfRemote_invalid h n))

/-- The causes an operation of the table can end with. -/
abbrev OperandCause (c : Cause) : Prop := c = .idRange ∨ c = .lengthRange ∨ c = .payloadCapacity

/-- `to_protocol` of a well-formed driver operand: a valid frame or an operand cause (42_translate.md R80). -/
theorem toProtocol_cases {d : DriverFrame} (wf : d.wf = true) :
    (∃ f, toProtocol d = .ok f ∧ ValidProtocolFrame f) ∨ ∃ c, OperandCause c ∧ toProtocol d = .error c := by
  obtain ⟨id, kind, dlc, payload⟩ := d
  by_cases h : ValidIdentifier id
  · rw [toProtocol_valid (f := ⟨id, kind, dlc, payload⟩) h]
    have route (p : Payload) (wf : p.wf = true) :
        (∃ f, pfData id p = .ok f ∧ ValidProtocolFrame f) ∨ ∃ c, OperandCause c ∧ pfData id p = .error c := by
      rcases pfData_cases id wf with ⟨f, eq, valid, -⟩ | eq | eq
      · exact .inl ⟨f, eq, valid⟩
      · exact .inr ⟨_, .inl rfl, eq⟩
      · exact .inr ⟨_, .inr (.inr rfl), eq⟩
    cases kind with
    | remote =>
      rcases pfRemote_cases id dlc with ⟨f, eq, valid, -⟩ | eq | eq
      · exact .inl ⟨f, eq, valid⟩
      · exact .inr ⟨_, .inl rfl, eq⟩
      · exact .inr ⟨_, .inr (.inl rfl), eq⟩
    | data =>
      cases payload with
      | none => exact route emptyPayload rfl
      | some p => exact route p wf
  · exact .inr ⟨_, .inl rfl, toProtocol_invalid (f := ⟨id, kind, dlc, payload⟩) h⟩

/-- A well-formed protocol operand with a valid identifier and a length that fits is a valid frame. -/
theorem valid_of_wf {f : ProtocolFrame} (wf : f.wf = true) (h : ValidIdentifier f.id)
    (n : f.len.toNat ≤ 8) : ValidProtocolFrame f := by
  obtain ⟨id, kind, len, payload⟩ := f
  have small : len.toNat ≤ 8 := n
  refine ⟨h, n, ?_⟩
  cases kind with
  | data => simpa [ProtocolFrame.wf, protocolPayloadLength, small] using wf
  | remote => simpa [ProtocolFrame.wf, protocolPayloadLength] using wf

/-- `to_driver` of a valid frame succeeds (42_translate.md R82). -/
theorem toDriver_of_valid {f : ProtocolFrame} (h : ValidProtocolFrame f) :
    toDriver f = .ok (driverOf f) := by
  obtain ⟨id, kind, len, payload⟩ := f
  obtain ⟨ok, small, shape⟩ := h
  have small' : len.toNat ≤ 8 := small
  have ok' : ValidIdentifier id := ok
  rw [toDriver_valid (f := ⟨id, kind, len, payload⟩) ok]
  cases kind with
  | data =>
    have count : payload.length = len.toNat := shape
    simp [routeToDriver, dfData_valid (p := ⟨len, payload⟩) ok' small', driverOf, ← count]
  | remote => simp [routeToDriver, dfRemote_valid ok' small', driverOf]

/-- `to_driver` of a well-formed protocol operand: the driver frame of the operand, which is then valid, or an
operand cause. -/
theorem toDriver_cases {f : ProtocolFrame} (wf : f.wf = true) :
    (ValidProtocolFrame f ∧ toDriver f = .ok (driverOf f)) ∨
      ∃ c, OperandCause c ∧ toDriver f = .error c := by
  by_cases h : ValidIdentifier f.id
  · rcases Nat.lt_or_ge 8 f.len.toNat with big | small
    · rw [toDriver_valid h]
      unfold routeToDriver
      split
      · exact .inr ⟨_, .inr (.inl rfl), dfRemote_oversize h (by simpa using big)⟩
      · exact .inr ⟨_, .inr (.inr rfl), dfData_oversize (p := ⟨f.len, f.payload⟩) h big⟩
    · have valid := valid_of_wf wf h small
      exact .inl ⟨valid, toDriver_of_valid valid⟩
  · exact .inr ⟨_, .inl rfl, toDriver_invalid h⟩

/-- `encode_line` of a well-formed protocol operand: the line of the operand, which is then valid, or an operand
cause (43_line_encode.md R90). -/
theorem encodeLine_cases (cfg : LineConfig) {f : ProtocolFrame} (wf : f.wf = true) :
    (ValidProtocolFrame f ∧ encodeLine cfg f = .ok (renderLine cfg f)) ∨
      ∃ c, OperandCause c ∧ encodeLine cfg f = .error c := by
  by_cases h : ValidIdentifier f.id
  · rcases Nat.lt_or_ge 8 f.len.toNat with big | small
    · refine .inr ⟨lengthCause f.kind, ?_, encodeLine_oversize cfg h big⟩
      cases f.kind
      · exact .inr (.inr rfl)
      · exact .inr (.inl rfl)
    · exact .inl ⟨valid_of_wf wf h small, encodeLine_valid cfg h small⟩
  · exact .inr ⟨_, .inl rfl, encodeLine_invalid cfg h⟩

/-- What a well-formed operation can do: everything, in five cases. -/
theorem exec_cases {i : Instr} (wf : i.wf = true) (s : State) :
    (∃ c, OperandCause c ∧ exec i s = .next (raiseAbsent c s)) ∨
      (∃ id, ValidIdentifier id ∧ exec i s = .next (complete .identifier (idWord id) s)) ∨
      (∃ f, ValidProtocolFrame f ∧ exec i s = .next (complete .protocolFrame (protocolWord f) s)) ∨
      (∃ f, ValidProtocolFrame f ∧
        exec i s = .next (complete .driverFrame (driverWord (driverOf f)) s)) ∨
      ∃ f, ValidProtocolFrame f ∧ exec i s = .next (completeLine (renderLine defaultLine f) s) := by
  have fromId (r : Except Cause Identifier) (id : Identifier) (success : ValidIdentifier id → r = .ok id)
      (failure : ¬ ValidIdentifier id → r = .error .idRange) :
      (∃ c, OperandCause c ∧ conclude r completeIdentifier s = .next (raiseAbsent c s)) ∨
        ∃ id, ValidIdentifier id ∧
          conclude r completeIdentifier s = .next (complete .identifier (idWord id) s) := by
    by_cases h : ValidIdentifier id
    · exact .inr ⟨id, h, by rw [success h]; rfl⟩
    · exact .inl ⟨_, .inl rfl, by rw [failure h]; rfl⟩
  have idCase {o : Host.Outcome State Fault Refusal} :
      ((∃ c, OperandCause c ∧ o = .next (raiseAbsent c s)) ∨
        ∃ id, ValidIdentifier id ∧ o = .next (complete .identifier (idWord id) s)) →
      _ := fun h => h.imp_right fun h => (.inl h : _ ∨
        (∃ f, ValidProtocolFrame f ∧ o = .next (complete .protocolFrame (protocolWord f) s)) ∨
        (∃ f, ValidProtocolFrame f ∧ o = .next (complete .driverFrame (driverWord (driverOf f)) s)) ∨
        ∃ f, ValidProtocolFrame f ∧ o = .next (completeLine (renderLine defaultLine f) s))
  cases i with
  | idStd v => exact idCase (fromId _ ⟨.standard, v⟩ newIdentifier_valid newIdentifier_invalid)
  | idExt v => exact idCase (fromId _ ⟨.extended, v⟩ newIdentifier_valid newIdentifier_invalid)
  | toProtocolId id => exact idCase (fromId _ id toProtocolId_valid toProtocolId_invalid)
  | toDriverId id => exact idCase (fromId _ id toDriverId_valid toDriverId_invalid)
  | pfNewData id p =>
    simp only [exec, execPfNewData]
    rcases pfData_cases id wf with ⟨f, eq, valid, -⟩ | eq | eq <;> rw [eq]
    · exact .inr (.inr (.inl ⟨f, valid, rfl⟩))
    · exact .inl ⟨_, .inl rfl, rfl⟩
    · exact .inl ⟨_, .inr (.inr rfl), rfl⟩
  | pfNewRemote id n =>
    simp only [exec, execPfNewRemote]
    rcases pfRemote_cases id n with ⟨f, eq, valid, -⟩ | eq | eq <;> rw [eq]
    · exact .inr (.inr (.inl ⟨f, valid, rfl⟩))
    · exact .inl ⟨_, .inl rfl, rfl⟩
    · exact .inl ⟨_, .inr (.inl rfl), rfl⟩
  | dfNewData id p =>
    simp only [exec, execDfNewData]
    rcases dfData_cases id wf with ⟨f, eq, valid, -⟩ | eq | eq <;> rw [eq]
    · exact .inr (.inr (.inr (.inl ⟨f, valid, rfl⟩)))
    · exact .inl ⟨_, .inl rfl, rfl⟩
    · exact .inl ⟨_, .inr (.inr rfl), rfl⟩
  | dfNewRemote id n =>
    simp only [exec, execDfNewRemote]
    rcases dfRemote_cases id n with ⟨f, eq, valid, -⟩ | eq | eq <;> rw [eq]
    · exact .inr (.inr (.inr (.inl ⟨f, valid, rfl⟩)))
    · exact .inl ⟨_, .inl rfl, rfl⟩
    · exact .inl ⟨_, .inr (.inl rfl), rfl⟩
  | toProtocol d =>
    simp only [exec, execToProtocol]
    rcases toProtocol_cases wf with ⟨f, eq, valid⟩ | ⟨c, cause, eq⟩ <;> rw [eq]
    · exact .inr (.inr (.inl ⟨f, valid, rfl⟩))
    · exact .inl ⟨c, cause, rfl⟩
  | toDriver f =>
    simp only [exec, execToDriver]
    rcases toDriver_cases wf with ⟨valid, eq⟩ | ⟨c, cause, eq⟩ <;> rw [eq]
    · exact .inr (.inr (.inr (.inl ⟨f, valid, rfl⟩)))
    · exact .inl ⟨c, cause, rfl⟩
  | encodeLine f =>
    simp only [exec, execEncodeLine]
    rcases encodeLine_cases defaultLine wf with ⟨valid, eq⟩ | ⟨c, cause, eq⟩ <;> rw [eq]
    · exact .inr (.inr (.inr (.inr ⟨f, valid, rfl⟩)))
    · exact .inl ⟨c, cause, rfl⟩

/-- What issuing a command can do: ILLEGAL_OP for a reserved OP, exec of the decoded operation otherwise
(60_exceptions.md R103). -/
theorem issue_cases (c : Command) (s : State) :
    (c.op ∈ reservedOps ∧ issue c s = .next (raiseAbsent .illegalOp s)) ∨
      ∃ i, decode c = .ok i ∧ i.wf = true ∧ issue c s = exec i s := by
  obtain ⟨op, w⟩ := c
  rcases reserved_or_assigned op with reserved | assigned
  · exact .inl ⟨reserved, by simp only [issue, decode_reserved op reserved]⟩
  · obtain ⟨i, eq⟩ := decode_assigned op assigned w
    exact .inr ⟨i, eq, (decode_ok eq).2.1, by simp only [issue, eq]⟩

end Sys2Proof.Laws
end

