-- ==== Sys2Proof/Laws/PerInstr.lean ====
section
/-! SUPPORT. Statements about every operation as syntax, one lemma per constructor. Family `EncodeShape`: the
encoder gives an assigned OP and a frame word whose reserved bits are 0 (30_encoding.md R40, R52). -/

namespace Sys2Proof.Laws.EncodeShape

/-- The command of the operation has an assigned OP and reserved bits 0. -/
def Statement (i : Instr) : Prop :=
  (encode i).op ∈ assignedOps ∧ (encode i).opd.extractLsb' 35 5 = 0#5 ∧
    (encode i).opd.extractLsb' 56 8 = 0#8

theorem of_assembled (i : Instr) (op : OpCode) (f : WordFields) (h : encode i = ⟨op, assembleWord f⟩)
    (assigned : op ∈ assignedOps) : Statement i := by
  unfold Statement
  rw [h]
  exact ⟨assigned, reservedLow_assembleWord f, reservedHigh_assembleWord f⟩

theorem idStd (v : BitVec 32) : Statement (.idStd v) := of_assembled _ _ _ rfl (by decide)
theorem idExt (v : BitVec 32) : Statement (.idExt v) := of_assembled _ _ _ rfl (by decide)
theorem toProtocolId (id : Identifier) : Statement (.toProtocolId id) :=
  of_assembled _ _ _ rfl (by decide)
theorem toDriverId (id : Identifier) : Statement (.toDriverId id) := of_assembled _ _ _ rfl (by decide)
theorem pfNewData (id : Identifier) (p : Payload) : Statement (.pfNewData id p) :=
  of_assembled _ _ _ rfl (by decide)
theorem pfNewRemote (id : Identifier) (n : BitVec 8) : Statement (.pfNewRemote id n) :=
  of_assembled _ _ _ rfl (by decide)
theorem dfNewData (id : Identifier) (p : Payload) : Statement (.dfNewData id p) :=
  of_assembled _ _ _ rfl (by decide)
theorem dfNewRemote (id : Identifier) (n : BitVec 8) : Statement (.dfNewRemote id n) :=
  of_assembled _ _ _ rfl (by decide)
theorem toProtocol (f : DriverFrame) : Statement (.toProtocol f) := of_assembled _ _ _ rfl (by decide)
theorem toDriver (f : ProtocolFrame) : Statement (.toDriver f) := of_assembled _ _ _ rfl (by decide)
theorem encodeLine (f : ProtocolFrame) : Statement (.encodeLine f) := of_assembled _ _ _ rfl (by decide)

end Sys2Proof.Laws.EncodeShape
end

