-- ==== Sys2Proof/Laws/Step.lean ====
section
/-! SUPPORT. What a step can do, said once, interaction by interaction (60_exceptions.md R111), and running a
list of interactions piece by piece. -/

namespace Sys2Proof.Laws

open Sys2Proof.Machine Sys2Proof.Safety

section Equations

variable {s : State} {ctx : HostContext} {rest : List HostEvent}

theorem step_idle (h : s.inputs = []) : step s = .next s := by
  unfold step; rw [h]

theorem step_cons {e : HostEvent} (h : s.inputs = e :: rest) :
    step s = serve e { s with inputs := rest } := by
  unfold step; rw [h]

theorem step_issue {c : Command} (h : s.inputs = ⟨ctx, .issue c⟩ :: rest) :
    step s = issue c { s with inputs := rest } := step_cons h

theorem step_forward {op : OpCode} (h : s.inputs = ⟨ctx, .forward op⟩ :: rest) :
    step s = issue ⟨op, s.block.resFrame⟩ { s with inputs := rest } := step_cons h

theorem step_read {p : ReadPort} (h : s.inputs = ⟨ctx, .read p⟩ :: rest) :
    step s = hostRead ctx p { s with inputs := rest } := step_cons h

theorem step_drop (h : s.inputs = ⟨ctx, .drop⟩ :: rest) : step s = .next { s with inputs := rest } :=
  step_cons h

theorem step_reset (h : s.inputs = ⟨ctx, .reset⟩ :: rest) :
    step s = .next (resetBlock { s with inputs := rest }) := step_cons h

end Equations

theorem hostRead_ok {ctx : HostContext} {p : ReadPort} {s : State} {v : ReadValue}
    (h : readPort s.block p = .ok v) : hostRead ctx p s = .next { s with hostGot := some ⟨ctx, v⟩ } := by
  unfold hostRead; rw [h]

theorem hostRead_error {ctx : HostContext} {p : ReadPort} {s : State} {f : Fault}
    (h : readPort s.block p = .error f) : hostRead ctx p s = .fault f := by
  unfold hostRead; rw [h]

/-- A read answers a value, but for a LINE index that names no cell (20_memory.md R30). -/
theorem readPort_cases (b : Block) (p : ReadPort) :
    (∃ v, readPort b p = .ok v ∧ presentable ⟨.receive, .read p⟩ = true) ∨
      ∃ i, p = .lineCell i ∧ 27 ≤ i ∧ readPort b p = .error (.noLineCell i) := by
  cases p with
  | lineCell i =>
    rcases Nat.lt_or_ge i 27 with lt | ge
    · exact .inl ⟨.lineCell i (b.line.read i), by simp [readPort, lt], by simp [presentable, lt]⟩
    · exact .inr ⟨i, rfl, ge, by simp [readPort, Nat.not_lt.mpr ge]⟩
  | _ => exact .inl ⟨_, rfl, rfl⟩

/-- Issuing a command always completes, with the host's side as it was: by an absence with a cause that is
raised, or by a result (60_exceptions.md R105; 70_reset_and_hazards.md R126). -/
theorem issue_next (c : Command) (s : State) :
    ∃ t, issue c s = .next t ∧ HostSideKept s t ∧
      ((∃ k, k ≠ Cause.renderFault ∧ t.block = absentBlock k) ∨
        (∃ id, ValidIdentifier id ∧ t.block = frameBlock .identifier (idWord id)) ∨
        (∃ f, ValidProtocolFrame f ∧ t.block = frameBlock .protocolFrame (protocolWord f)) ∨
        (∃ f, ValidProtocolFrame f ∧ t.block = frameBlock .driverFrame (driverWord (driverOf f))) ∨
        ∃ f, ValidProtocolFrame f ∧ t.block = lineBlock (renderLine defaultLine f)) := by
  rcases issue_cases c s with ⟨-, eq⟩ | ⟨i, -, wf, eq⟩
  · exact ⟨_, eq, hostSideKept_raiseAbsent _ s, .inl ⟨.illegalOp, by decide, rfl⟩⟩
  · rcases exec_cases wf s with ⟨k, cause, done⟩ | ⟨id, valid, done⟩ | ⟨f, valid, done⟩ |
      ⟨f, valid, done⟩ | ⟨f, valid, done⟩
    · refine ⟨_, eq.trans done, hostSideKept_raiseAbsent _ s, .inl ⟨k, ?_, rfl⟩⟩
      rcases cause with rfl | rfl | rfl <;> decide
    · exact ⟨_, eq.trans done, hostSideKept_complete _ _ s, .inr (.inl ⟨id, valid, rfl⟩)⟩
    · exact ⟨_, eq.trans done, hostSideKept_complete _ _ s, .inr (.inr (.inl ⟨f, valid, rfl⟩))⟩
    · exact ⟨_, eq.trans done, hostSideKept_complete _ _ s, .inr (.inr (.inr (.inl ⟨f, valid, rfl⟩)))⟩
    · exact ⟨_, eq.trans done, hostSideKept_completeLine _ s, .inr (.inr (.inr (.inr ⟨f, valid, rfl⟩)))⟩

/-- A step leaves the block alone, resets it, or is an issue of some command. -/
theorem step_cases {s t : State} (h : step s = .next t) :
    t.block = s.block ∨ t.block = Block.reset ∨
      ∃ c rest, issue c { s with inputs := rest } = .next t := by
  rcases inputs : s.inputs with - | ⟨⟨ctx, act⟩, rest⟩
  · rw [step_idle inputs] at h
    cases h
    exact .inl rfl
  · cases act with
    | issue c => exact .inr (.inr ⟨c, rest, (step_issue inputs).symm.trans h⟩)
    | forward op => exact .inr (.inr ⟨_, rest, (step_forward inputs).symm.trans h⟩)
    | read p =>
      rw [step_read inputs] at h
      rcases readPort_cases s.block p with ⟨v, eq, -⟩ | ⟨i, -, -, eq⟩
      · rw [hostRead_ok (s := { s with inputs := rest }) eq] at h
        cases h
        exact .inl rfl
      · rw [hostRead_error (s := { s with inputs := rest }) eq] at h
        cases h
    | drop =>
      rw [step_drop inputs] at h
      cases h
      exact .inl rfl
    | reset =>
      rw [step_reset inputs] at h
      cases h
      exact .inr (.inl rfl)

/-- Running one more step first. -/
theorem run_succ {s t : State} (k : Nat) (h : step s = .next t) :
    Host.Core.run Sys2Proof.core (k + 1) s = Host.Core.run Sys2Proof.core k t := by
  have first : Sys2Proof.core.step s = .next t := h
  simp only [Host.Core.run, first]

theorem run_zero (s : State) : Host.Core.run Sys2Proof.core 0 s = .next s := rfl

end Sys2Proof.Laws
end

