-- ==== Sys2Proof/Tests/Slice0.lean ====
section
/-! SUPPORT. The session's own tests. Expected values come from the spec: the vectors of 95_test_vectors.md (named
I1, K1, T1, E1, X1, RS1), the encodings of 30_encoding.md R40 and R42, and the rules named. Last, for each
statement with hypotheses, a witness that meets all of them, clause by clause at the ends of the ranges. -/

namespace Sys2Proof.Tests

open Sys2Proof.Machine Sys2Proof.Safety

/-! ### Small states -/

/-- A block that holds vector E4's line, so that a test sees what an operation overwrites. -/
def stale : State :=
  { State.reset with
    block :=
      { resValid := 1#1, resCause := 0#4, resKind := 4#3, resFrame := 0#128, lineLen := 6#5
        line := [(0, 0x74#8), (1, 0x37#8), (2, 0x46#8), (3, 0x46#8), (4, 0x30#8), (5, 0x0D#8)] } }

/-- The stale state with the host's next interactions. -/
def hostAt (es : List HostEvent) : State := { stale with inputs := es }

/-- The next state, if there is one. -/
def nextOf (o : Host.Outcome State Fault Refusal) : Option State :=
  match o with
  | .next t => some t
  | .fault _ => none
  | .refused _ => none

/-- The block after the operation issued on the stale state by one step of the machine. -/
def after (op : OpCode) (w : FrameWord) : Option Block :=
  (nextOf (step (hostAt [⟨.receive, .issue ⟨op, w⟩⟩]))).map State.block

/-- All 27 LINE cells. -/
def cells (b : Block) : List Byte := (List.range 27).map b.line.read

/-- What a frame result leaves, every register. -/
def leavesFrame (op : OpCode) (w : FrameWord) (kind : BitVec 3) (r : FrameWord) : Bool :=
  (after op w).any fun b =>
    b.resValid == 1#1 && b.resCause == 0#4 && b.resKind == kind && b.resFrame == r && b.lineLen == 0#5
      && cells b == List.replicate 27 0x00#8

/-- What an absence leaves, every register. -/
def leavesAbsence (op : OpCode) (w : FrameWord) (cause : BitVec 4) : Bool :=
  (after op w).any fun b =>
    b.resValid == 0#1 && b.resCause == cause && b.resKind == 0#3 && b.resFrame == 0#128 && b.lineLen == 0#5
      && cells b == List.replicate 27 0x00#8

/-- What a line leaves, every register. -/
def leavesLine (w : FrameWord) (bs : List Byte) : Bool :=
  (after 0xB#4 w).any fun b =>
    b.resValid == 1#1 && b.resCause == 0#4 && b.resKind == 4#3 && b.resFrame == 0#128
      && b.lineLen.toNat == bs.length && cells b == bs ++ List.replicate (27 - bs.length) 0x00#8

/-! ### WellFormed refuses ill-formed operands -/

theorem test_wf_pfNewData_short_payload :
    (Instr.pfNewData ⟨.standard, 1#32⟩ ⟨3#8, [1#8, 2#8]⟩).wf = false := by decide
theorem test_wf_dfNewData_long_payload :
    (Instr.dfNewData ⟨.standard, 1#32⟩ ⟨9#8, List.replicate 9 1#8⟩).wf = false := by decide
theorem test_wf_toProtocol_payload :
    (Instr.toProtocol ⟨⟨.standard, 1#32⟩, .data, 2#8, some ⟨2#8, [1#8]⟩⟩).wf = false := by decide
theorem test_wf_toDriver_data_payload :
    (Instr.toDriver ⟨⟨.standard, 1#32⟩, .data, 2#8, [1#8]⟩).wf = false := by decide
theorem test_wf_toDriver_remote_payload :
    (Instr.toDriver ⟨⟨.standard, 1#32⟩, .remote, 1#8, [1#8]⟩).wf = false := by decide
theorem test_wf_encodeLine_oversize_payload :
    (Instr.encodeLine ⟨⟨.standard, 1#32⟩, .data, 9#8, [1#8]⟩).wf = false := by decide

/-! ### Decoding words written out from 30_encoding.md R40 and R42

The operand is written field by field from bit 127 down: DATA[7] to DATA[0], reserved, PLEN, LEN, reserved, PP,
RTR, IDE, ID. The unread fields are filled with ones. -/

theorem test_decode_idStd :
    decode ⟨0b0001#4, 0xFFFFFFFFFFFFFFFF#64 ++ 0xFF#8 ++ 0xFF#8 ++ 0xFF#8 ++ 0b11111#5 ++ 0b1#1 ++ 0b1#1 ++ 0b1#1
      ++ 0x00000123#32⟩ = .ok (.idStd 0x123#32) := by decide
theorem test_decode_idExt :
    decode ⟨0b0010#4, 0xFFFFFFFFFFFFFFFF#64 ++ 0xFF#8 ++ 0xFF#8 ++ 0xFF#8 ++ 0b11111#5 ++ 0b1#1 ++ 0b1#1 ++ 0b0#1
      ++ 0x001ABCDE#32⟩ = .ok (.idExt 0x1ABCDE#32) := by decide
theorem test_decode_toProtocolId :
    decode ⟨0b0011#4, 0xFFFFFFFFFFFFFFFF#64 ++ 0xFF#8 ++ 0xFF#8 ++ 0xFF#8 ++ 0b11111#5 ++ 0b1#1 ++ 0b1#1 ++ 0b1#1
      ++ 0x001ABCDE#32⟩ = .ok (.toProtocolId ⟨.extended, 0x1ABCDE#32⟩) := by decide
theorem test_decode_toDriverId :
    decode ⟨0b0100#4, 0xFFFFFFFFFFFFFFFF#64 ++ 0xFF#8 ++ 0xFF#8 ++ 0xFF#8 ++ 0b11111#5 ++ 0b1#1 ++ 0b1#1 ++ 0b0#1
      ++ 0x80000000#32⟩ = .ok (.toDriverId ⟨.standard, 0x80000000#32⟩) := by decide
theorem test_decode_pfNewData :
    decode ⟨0b0101#4, 0xFFFFFFFFFFCCBBAA#64 ++ 0xFF#8 ++ 3#8 ++ 0xFF#8 ++ 0b11111#5 ++ 0b1#1 ++ 0b1#1 ++ 0b1#1
      ++ 0x001ABCDE#32⟩
      = .ok (.pfNewData ⟨.extended, 0x1ABCDE#32⟩ ⟨3#8, [0xAA#8, 0xBB#8, 0xCC#8]⟩) := by decide
theorem test_decode_pfNewRemote :
    decode ⟨0b0110#4, 0xFFFFFFFFFFFFFFFF#64 ++ 0xFF#8 ++ 0xFF#8 ++ 4#8 ++ 0b11111#5 ++ 0b1#1 ++ 0b1#1 ++ 0b1#1
      ++ 0x001ABCDE#32⟩ = .ok (.pfNewRemote ⟨.extended, 0x1ABCDE#32⟩ 4#8) := by decide
theorem test_decode_dfNewData :
    decode ⟨0b0111#4, 0x0807060504030201#64 ++ 0xFF#8 ++ 255#8 ++ 0xFF#8 ++ 0b11111#5 ++ 0b1#1 ++ 0b1#1 ++ 0b0#1
      ++ 0x00000123#32⟩
      = .ok (.dfNewData ⟨.standard, 0x123#32⟩ ⟨255#8, [1#8, 2#8, 3#8, 4#8, 5#8, 6#8, 7#8, 8#8]⟩) := by decide
theorem test_decode_dfNewRemote :
    decode ⟨0b1000#4, 0xFFFFFFFFFFFFFFFF#64 ++ 0xFF#8 ++ 0xFF#8 ++ 15#8 ++ 0b11111#5 ++ 0b1#1 ++ 0b1#1 ++ 0b0#1
      ++ 0x00000000#32⟩ = .ok (.dfNewRemote ⟨.standard, 0#32⟩ 15#8) := by decide
theorem test_decode_toProtocol :
    decode ⟨0b1001#4, 0xFFFFFFFFFFFF0201#64 ++ 0xFF#8 ++ 2#8 ++ 5#8 ++ 0b11111#5 ++ 0b1#1 ++ 0b1#1 ++ 0b0#1
      ++ 0x00000100#32⟩
      = .ok (.toProtocol ⟨⟨.standard, 0x100#32⟩, .remote, 5#8, some ⟨2#8, [1#8, 2#8]⟩⟩) := by decide
theorem test_decode_toProtocol_no_payload :
    decode ⟨0b1001#4, 0xFFFFFFFFFFFFFFFF#64 ++ 0xFF#8 ++ 0xFF#8 ++ 5#8 ++ 0b11111#5 ++ 0b0#1 ++ 0b0#1 ++ 0b1#1
      ++ 0x000007FF#32⟩ = .ok (.toProtocol ⟨⟨.extended, 0x7FF#32⟩, .data, 5#8, none⟩) := by decide
theorem test_decode_toDriver :
    decode ⟨0b1010#4, 0xFFFFFFFFFFFF0201#64 ++ 0xFF#8 ++ 0xFF#8 ++ 2#8 ++ 0b11111#5 ++ 0b1#1 ++ 0b0#1 ++ 0b1#1
      ++ 0x001ABCDE#32⟩ = .ok (.toDriver ⟨⟨.extended, 0x1ABCDE#32⟩, .data, 2#8, [1#8, 2#8]⟩) := by decide
theorem test_decode_encodeLine :
    decode ⟨0b1011#4, 0xFFFFFFFFFFFFFFFF#64 ++ 0xFF#8 ++ 0xFF#8 ++ 8#8 ++ 0b11111#5 ++ 0b1#1 ++ 0b1#1 ++ 0b0#1
      ++ 0x000007FF#32⟩ = .ok (.encodeLine ⟨⟨.standard, 0x7FF#32⟩, .remote, 8#8, []⟩) := by decide
theorem test_decode_reserved :
    [0x0#4, 0xC#4, 0xD#4, 0xE#4, 0xF#4].all (fun op => decode ⟨op, 0#128⟩ = .error (.reservedOp op)) = true := by
  decide

/-- The host's numbering (log 14): bits 3..0 are OP, bits 7..4 are 0, an opcode-table row has one byte. -/
theorem test_decodeTableWord :
    decodeTableWord 8 0x01 = some (.idStd 0#32) ∧
      decodeTableWord 8 0x0B = some (.encodeLine ⟨⟨.standard, 0#32⟩, .data, 0#8, []⟩) ∧
      decodeTableWord 8 0x0C = none ∧ decodeTableWord 8 0x00 = none ∧ decodeTableWord 8 0x11 = none ∧
      decodeTableWord 136 (0x00000001001ABCDE * 256 + 2) = some (.idExt 0x1ABCDE#32) := by decide
theorem test_withFetchWord_runs_next :
    (nextOf (step (stale.withFetchWord 136 (0x1001ABCDE * 256 + 2)))).map (fun t => (t.block.resFrame, t.inputs))
      = some (0x00000001001ABCDE#128, []) := by decide

/-! ### One step of each operation (95_test_vectors.md) -/

theorem test_I2_idStd : leavesFrame 0x1#4 0x7FF#128 1#3 0x7FF#128 = true := by decide
theorem test_I3_idStd : leavesAbsence 0x1#4 0x800#128 1#4 = true := by decide
theorem test_I9_idExt : leavesFrame 0x2#4 0x1#128 1#3 0x0000000100000001#128 = true := by decide
theorem test_I8_idExt : leavesAbsence 0x2#4 0x0000000020000000#128 1#4 = true := by decide
theorem test_I11_toProtocolId :
    leavesFrame 0x3#4 0x00000001000007FF#128 1#3 0x00000001000007FF#128 = true := by decide
theorem test_I13_toProtocolId : leavesAbsence 0x3#4 0x0000000120000000#128 1#4 = true := by decide
theorem test_I16_toDriverId :
    leavesFrame 0x4#4 0x000009031FFFFFFF#128 1#3 0x000000011FFFFFFF#128 = true := by decide
theorem test_I15_toDriverId : leavesAbsence 0x4#4 0x0000000000000800#128 1#4 = true := by decide
theorem test_K3_pfNewData :
    leavesFrame 0x5#4 0x000000EEDDCCBBAA_00030001001ABCDE#128 3#3
      0x0000000000CCBBAA_00000301001ABCDE#128 = true := by decide
theorem test_K5_pfNewData : leavesAbsence 0x5#4 0x0009000000000800#128 1#4 = true := by decide
theorem test_K9_pfNewRemote :
    leavesFrame 0x6#4 0x0807060504030201_00000800000007FF#128 3#3 0x00000802000007FF#128 = true := by decide
theorem test_K10_pfNewRemote : leavesAbsence 0x6#4 0x00000900000007FF#128 2#4 = true := by decide
theorem test_K12_dfNewData :
    leavesFrame 0x7#4 0x000000000000ADDE_0002000000000123#128 2#3
      0x000000000000ADDE_0002020400000123#128 = true := by decide
theorem test_K15_dfNewData : leavesAbsence 0x7#4 0x0009000000000123#128 3#4 = true := by decide
theorem test_K17_dfNewRemote :
    leavesFrame 0x8#4 0x00000401001ABCDE#128 2#3 0x00000403001ABCDE#128 = true := by decide
theorem test_K19_dfNewRemote : leavesAbsence 0x8#4 0x00000F0000000000#128 2#4 = true := by decide
theorem test_T4_toProtocol :
    leavesFrame 0x9#4 0x0807060504030201_0003080400000100#128 3#3
      0x0000000000030201_0000030000000100#128 = true := by decide
theorem test_T3_toProtocol :
    leavesFrame 0x9#4 0x00000500000007FF#128 3#3 0x00000000000007FF#128 = true := by decide
theorem test_T14_toDriver :
    leavesFrame 0xA#4 0xFFFFFFFFFFFFFFFF_00000000000007FF#128 2#3 0x00000004000007FF#128 = true := by decide
theorem test_T18_toDriver : leavesAbsence 0xA#4 0x00000902000007FF#128 2#4 = true := by decide
theorem test_E3_encodeLine :
    leavesLine 0xFFFFFFFFFFFFFFFF_000008011FFFFFFF#128
      [0x54#8, 0x31#8, 0x46#8, 0x46#8, 0x46#8, 0x46#8, 0x46#8, 0x46#8, 0x46#8, 0x38#8, 0x46#8, 0x46#8, 0x46#8,
        0x46#8, 0x46#8, 0x46#8, 0x46#8, 0x46#8, 0x46#8, 0x46#8, 0x46#8, 0x46#8, 0x46#8, 0x46#8, 0x46#8, 0x46#8,
        0x0D#8] = true := by decide
theorem test_E10_encodeLine :
    leavesLine 0x0000000099EEFFC0_00070304000002A5#128
      [0x74#8, 0x32#8, 0x41#8, 0x35#8, 0x33#8, 0x43#8, 0x30#8, 0x46#8, 0x46#8, 0x45#8, 0x45#8, 0x0D#8]
      = true := by decide
theorem test_X3_reserved : leavesAbsence 0xF#4 0x0000090120000000#128 5#4 = true := by decide

/-! ### The host -/

/-- Vector RS1, from a state that holds a line. -/
theorem test_RS1_reset : (nextOf (step (hostAt [⟨.receive, .reset⟩]))).map State.block = some Block.reset := by
  decide
/-- 10_state.md R25: LINE[4] of vector E4 is '0'. -/
theorem test_read_line_cell :
    (nextOf (step (hostAt [⟨.transmit, .read (.lineCell 4)⟩]))).map (fun t => (t.hostGot, t.block))
      = some (some ⟨.transmit, .lineCell 4 0x30#8⟩, stale.block) := by decide
/-- Program P5's last step: forwarding RES_FRAME to TO_PROTOCOL gives an empty data frame. -/
theorem test_P5_forward :
    (nextOf (step { stale with
        block := { stale.block with resFrame := 0x00000004000007FF#128 }
        inputs := [⟨.receive, .forward 0x9#4⟩] })).map (fun t => t.block.resFrame)
      = some 0x00000000000007FF#128 := by decide
/-- 30_encoding.md R53, program P3's first line in binary form. -/
theorem test_commandText :
    commandText (HostLine.command ⟨0x9#4, { id := 0x800#32, pp := 1#1, len := 2#8, plen := 2#8, data := 0x0201#64 }⟩)
      = "OP=9 OPD=0000000000000201_0002020400000800".toList := by decide
/-- 30_encoding.md R53, the field list with braces as characters. -/
theorem test_lineText :
    lineText ⟨0x2#4, { id := 0x1ABCDE#32, ide := 1#1 }⟩
      = some ("ID_EXT ".toList ++ [Char.ofNat 0x7B]
        ++ "ide=1, id=0x001ABCDE, rtr=0, pp=0, len=0, plen=0, data=[00 00 00 00 00 00 00 00]".toList
        ++ [Char.ofNat 0x7D]) := by decide

/-! ### Witnesses: concrete values that meet a statement's hypotheses together -/

/-- Identifiers at both ends of both ranges, and just past them. -/
def stdMax : Identifier := ⟨.standard, 0x7FF#32⟩
def extMax : Identifier := ⟨.extended, 0x1FFFFFFF#32⟩
def stdOver : Identifier := ⟨.standard, 0x800#32⟩
def extOver : Identifier := ⟨.extended, 0x20000000#32⟩

/-- Eight payload bytes. -/
def eight : List Byte := [1#8, 2#8, 3#8, 4#8, 5#8, 6#8, 7#8, 8#8]

/-- The longest and the shortest frames of each kind. -/
def longData : ProtocolFrame := ⟨extMax, .data, 8#8, eight⟩
def emptyData : ProtocolFrame := ⟨stdMax, .data, 0#8, []⟩
def longRemote : ProtocolFrame := ⟨extMax, .remote, 8#8, []⟩
def emptyRemote : ProtocolFrame := ⟨stdMax, .remote, 0#8, []⟩

theorem valid_stdMax : ValidIdentifier stdMax := by simp [ValidIdentifier, stdMax]
theorem valid_extMax : ValidIdentifier extMax := by simp [ValidIdentifier, extMax]
theorem invalid_stdOver : ¬ ValidIdentifier stdOver := by simp [ValidIdentifier, stdOver]
theorem invalid_extOver : ¬ ValidIdentifier extOver := by simp [ValidIdentifier, extOver]
theorem valid_longData : ValidProtocolFrame longData := ⟨valid_extMax, by decide, rfl⟩
theorem valid_emptyData : ValidProtocolFrame emptyData := ⟨valid_stdMax, by decide, rfl⟩
theorem valid_longRemote : ValidProtocolFrame longRemote := ⟨valid_extMax, by decide, rfl⟩
theorem valid_emptyRemote : ValidProtocolFrame emptyRemote := ⟨valid_stdMax, by decide, rfl⟩

theorem witness_ResetRestoresEveryRegister :
    (hostAt [⟨.transmit, .reset⟩]).inputs = ⟨.transmit, .reset⟩ :: [] ∧ stale.block ≠ Block.reset := by decide
theorem witness_StepRunsDecodedOperation_issue :
    (hostAt [⟨.receive, .issue ⟨0x1#4, 0x7FF#128⟩⟩]).inputs = ⟨.receive, .issue ⟨0x1#4, 0x7FF#128⟩⟩ :: [] ∧
      decode ⟨0x1#4, 0x7FF#128⟩ = .ok (.idStd 0x7FF#32) := by decide
theorem witness_StepRunsDecodedOperation_forward :
    (hostAt [⟨.transmit, .forward 0xB#4⟩]).inputs = ⟨.transmit, .forward 0xB#4⟩ :: [] ∧
      decode ⟨0xB#4, stale.block.resFrame⟩ = .ok (.encodeLine ⟨⟨.standard, 0#32⟩, .data, 0#8, []⟩) := by decide
theorem witness_StepRunsDecodedOperation_reserved :
    (hostAt [⟨.receive, .issue ⟨0xC#4, 0#128⟩⟩]).inputs = ⟨.receive, .issue ⟨0xC#4, 0#128⟩⟩ :: [] ∧
      decode ⟨0xC#4, 0#128⟩ = .error (.reservedOp 0xC#4) := by decide
theorem witness_StepRunsDecodedOperation_forward_reserved :
    (hostAt [⟨.transmit, .forward 0xF#4⟩]).inputs = ⟨.transmit, .forward 0xF#4⟩ :: [] ∧
      decode ⟨0xF#4, stale.block.resFrame⟩ = .error (.reservedOp 0xF#4) := by decide
theorem witness_IdleStepChangesNothing : stale.inputs = [] := by decide
theorem witness_ReservedOpIsIllegal :
    [0x0#4, 0xC#4, 0xF#4].all (fun op => [0x0#4, 0xC#4, 0xD#4, 0xE#4, 0xF#4].contains op) = true := by decide
theorem witness_DecodeOfEncode :
    (Instr.pfNewData extOver ⟨255#8, eight⟩).wf = true ∧ (Instr.dfNewData stdMax ⟨0#8, []⟩).wf = true ∧
      (Instr.toProtocol ⟨stdMax, .remote, 255#8, some ⟨8#8, eight⟩⟩).wf = true ∧
      (Instr.toProtocol ⟨stdMax, .data, 0#8, none⟩).wf = true ∧ (Instr.toDriver longData).wf = true ∧
      (Instr.encodeLine ⟨stdMax, .data, 9#8, []⟩).wf = true ∧ (Instr.encodeLine longRemote).wf = true := by decide

/-- The hypotheses of UnreadFieldsIgnored, as a check on two words. -/
def agreeOnRead (op : OpCode) (v w : FrameWord) : Bool :=
  decide (v.extractLsb' 0 32 = w.extractLsb' 0 32) &&
    decide (op ∉ [0x1#4, 0x2#4] → v.extractLsb' 32 1 = w.extractLsb' 32 1) &&
    decide (op ∈ [0x9#4, 0xA#4, 0xB#4] → v.extractLsb' 33 1 = w.extractLsb' 33 1) &&
    decide (op ∈ [0x6#4, 0x8#4, 0x9#4, 0xA#4, 0xB#4] → v.extractLsb' 40 8 = w.extractLsb' 40 8) &&
    decide (op = 0x9#4 → v.extractLsb' 34 1 = w.extractLsb' 34 1) &&
    decide (op ∈ [0x5#4, 0x7#4] ∨ (op = 0x9#4 ∧ w.extractLsb' 34 1 = 1#1) →
      v.extractLsb' 48 8 = w.extractLsb' 48 8) &&
    (List.range 8).all (fun i => decide (op ∈ [0x5#4, 0x7#4] ∨ (op = 0x9#4 ∧ w.extractLsb' 34 1 = 1#1) →
      i < (w.extractLsb' 48 8).toNat → v.extractLsb' (64 + 8 * i) 8 = w.extractLsb' (64 + 8 * i) 8)) &&
    decide (op ∈ [0xA#4, 0xB#4] ∧ w.extractLsb' 33 1 = 0#1 ∧ (w.extractLsb' 40 8).toNat ≤ 8 →
      ∀ i < (w.extractLsb' 40 8).toNat, v.extractLsb' (64 + 8 * i) 8 = w.extractLsb' (64 + 8 * i) 8)

/-- Each pair differs in every bit its reading ignores: all but ID; all but the payload argument's fields with one
byte; all but the driver's with no payload; all but the protocol's with one byte, and with a length of 9. -/
theorem witness_UnreadFieldsIgnored :
    agreeOnRead 0x1#4 0xFFFFFFFFFFFFFFFF_FFFFFFFF000007FF#128 0x7FF#128 = true ∧
      agreeOnRead 0x5#4 0xFFFFFFFFFFFFFF55_FF01FFFE00000010#128 0x55_0001000000000010#128 = true ∧
      agreeOnRead 0x9#4 0xFFFFFFFFFFFFFFFF_FFFF05F8000007FF#128 0x00000500000007FF#128 = true ∧
      agreeOnRead 0x9#4 0xFFFFFFFFFFFFFFFF_FF0805FC000007FF#128 0xFFFFFFFFFFFFFFFF_00080504000007FF#128 = true ∧
      agreeOnRead 0xA#4 0xFFFFFFFFFFFFFF0A_FFFF01FC00000001#128 0x0A_0000010000000001#128 = true ∧
      agreeOnRead 0xB#4 0xFFFFFFFFFFFFFFFF_FFFF09FC00000001#128 0x0000090000000001#128 = true := by decide

theorem witness_IdStdConstructs : (0x7FF#32).toNat ≤ 0x7FF ∧ 0x7FF < (0x800#32).toNat := by decide
theorem witness_IdExtConstructs :
    (0x1FFFFFFF#32).toNat ≤ 0x1FFFFFFF ∧ 0x1FFFFFFF < (0x20000000#32).toNat := by decide
theorem witness_IdentifierConversions :
    ValidIdentifier stdMax ∧ ValidIdentifier extMax ∧ ¬ ValidIdentifier stdOver ∧ ¬ ValidIdentifier extOver :=
  ⟨valid_stdMax, valid_extMax, invalid_stdOver, invalid_extOver⟩
theorem witness_IdentifierRoundTrip :
    ValidIdentifier extMax ∧ ((0x3#4, 0x4#4) : OpCode × OpCode) ∈ [(0x3#4, 0x4#4), (0x4#4, 0x3#4)] ∧
      ∃ t, issue ⟨0x3#4, (encode (.toProtocolId extMax)).opd⟩ stale = .next t :=
  ⟨valid_extMax, by decide, _, rfl⟩
theorem witness_PfNewDataConstructs :
    ValidIdentifier stdMax ∧ (8#8).toNat ≤ 8 ∧ (⟨8#8, eight⟩ : Payload).wf = true ∧
      (⟨0#8, []⟩ : Payload).wf = true ∧ 8 < (9#8).toNat ∧ ¬ ValidIdentifier stdOver :=
  ⟨valid_stdMax, by decide, by decide, by decide, by decide, invalid_stdOver⟩
theorem witness_PfNewRemoteConstructs :
    ValidIdentifier extMax ∧ (8#8).toNat ≤ 8 ∧ 8 < (9#8).toNat ∧ ¬ ValidIdentifier extOver :=
  ⟨valid_extMax, by decide, by decide, invalid_extOver⟩
theorem witness_DfNewDataConstructs :
    ValidIdentifier extMax ∧ (8#8).toNat ≤ 8 ∧ (⟨8#8, eight⟩ : Payload).wf = true ∧
      (⟨0#8, []⟩ : Payload).wf = true ∧ 8 < (255#8).toNat ∧ ¬ ValidIdentifier extOver :=
  ⟨valid_extMax, by decide, by decide, by decide, by decide, invalid_extOver⟩
theorem witness_DfNewRemoteConstructs :
    ValidIdentifier stdMax ∧ (8#8).toNat ≤ 8 ∧ 8 < (15#8).toNat ∧ ¬ ValidIdentifier stdOver :=
  ⟨valid_stdMax, by decide, by decide, invalid_stdOver⟩
/-- Operands K14 and K17 (both pairs succeed), and K5 (both fail). -/
theorem witness_ConstructorsAgree_data :
    ∃ t u, issue ⟨0x5#4, 0xFFFFFFFFFFFFFFFF_000800011FFFFFFF#128⟩ stale = .next t ∧
      issue ⟨0x7#4, 0xFFFFFFFFFFFFFFFF_000800011FFFFFFF#128⟩ stale = .next u ∧ t.block.resValid = 1#1 :=
  ⟨_, _, rfl, rfl, by decide⟩
theorem witness_ConstructorsAgree_remote :
    ∃ t u, issue ⟨0x6#4, 0x00000401001ABCDE#128⟩ stale = .next t ∧
      issue ⟨0x8#4, 0x00000401001ABCDE#128⟩ stale = .next u ∧ t.block.resValid = 1#1 :=
  ⟨_, _, rfl, rfl, by decide⟩
theorem witness_ConstructorsAgree_failing :
    ∃ t u, issue ⟨0x5#4, 0x0009000000000800#128⟩ stale = .next t ∧
      issue ⟨0x7#4, 0x0009000000000800#128⟩ stale = .next u ∧ t.block.resValid = 0#1 :=
  ⟨_, _, rfl, rfl, by decide⟩
theorem witness_ToProtocolTranslates :
    ValidIdentifier stdMax ∧ (8#8).toNat ≤ 8 ∧ (⟨8#8, eight⟩ : Payload).wf = true ∧ 8 < (9#8).toNat ∧
      ¬ ValidIdentifier extOver :=
  ⟨valid_stdMax, by decide, by decide, by decide, invalid_extOver⟩
theorem witness_ToDriverTranslates :
    (ValidProtocolFrame longData ∧ longData.kind = .data) ∧ (ValidProtocolFrame emptyData ∧ emptyData.kind = .data) ∧
      (ValidIdentifier longRemote.id ∧ longRemote.len.toNat ≤ 8 ∧ longRemote.kind = .remote) ∧
      ¬ ValidIdentifier (⟨stdOver, .data, 9#8, []⟩ : ProtocolFrame).id ∧ 8 < (9#8).toNat :=
  ⟨⟨valid_longData, rfl⟩, ⟨valid_emptyData, rfl⟩, ⟨valid_extMax, by decide, rfl⟩, invalid_stdOver, by decide⟩
/-- Driver frames with an absent payload, one shorter than the DLC, and of the remote kind (10_state.md R21). -/
theorem witness_ResultWordsReadBack :
    ValidProtocolFrame longData ∧ ValidProtocolFrame longRemote ∧
      ValidDriverFrame ⟨stdMax, .data, 8#8, none⟩ ∧ ValidDriverFrame ⟨stdMax, .data, 8#8, some ⟨2#8, [1#8, 2#8]⟩⟩ ∧
      ValidDriverFrame ⟨extMax, .remote, 8#8, none⟩ :=
  ⟨valid_longData, valid_longRemote, ⟨valid_stdMax, by decide, trivial⟩,
    ⟨valid_stdMax, by decide, by decide, by decide⟩, ⟨valid_extMax, by decide, trivial⟩⟩
theorem witness_ProtocolDriverRoundTrip :
    ValidProtocolFrame longData ∧ ValidProtocolFrame emptyRemote ∧
      (hostAt [⟨.transmit, .issue ⟨0xA#4, protocolWord longData⟩⟩, ⟨.receive, .forward 0x9#4⟩]).inputs =
        ⟨.transmit, .issue ⟨0xA#4, protocolWord longData⟩⟩ :: ⟨.receive, .forward 0x9#4⟩ :: [] :=
  ⟨valid_longData, valid_emptyRemote, rfl⟩
/-- The five rows of the table of R85: T1, T4, T3, T7 and a remote frame that exposes a payload. -/
theorem witness_DriverProtocolRoundTrip :
    [0x0807060504030201_0008080400000001#128, 0x0807060504030201_0003080400000100#128, 0x00000500000007FF#128,
      0x00000403001ABCDE#128, 0x0201_0002040700000001#128].all
      (fun w => (nextOf (issue ⟨0x9#4, w⟩ stale)).any fun t => t.block.resValid == 1#1) = true := by decide
theorem witness_TranslatorNeverTruncates :
    [(0x1#4, 0x7FF#128), (0x2#4, 0x1FFFFFFF#128), (0x4#4, 0x11FFFFFFF#128), (0x5#4, 0x0008000000000001#128),
      (0x8#4, 0x0000080000000001#128), (0x9#4, 0x0000080200000001#128), (0x9#4, 0x0008000400000001#128), (0xA#4, 0x0000080000000001#128)].all
      (fun c => (nextOf (issue ⟨c.1, c.2⟩ stale)).any fun t => t.block.resValid == 1#1) = true := by decide
theorem witness_EncodeLineRenders :
    ValidProtocolFrame longData ∧ ValidProtocolFrame emptyData ∧ ValidProtocolFrame longRemote ∧
      ¬ ValidIdentifier (⟨extOver, .remote, 9#8, []⟩ : ProtocolFrame).id ∧
      (ValidIdentifier (⟨stdMax, .remote, 9#8, []⟩ : ProtocolFrame).id ∧ 8 < (9#8).toNat) :=
  ⟨valid_longData, valid_emptyData, valid_longRemote, invalid_extOver, valid_stdMax, by decide⟩
theorem witness_LineShape : ValidProtocolFrame emptyRemote ∧ ValidProtocolFrame longData :=
  ⟨valid_emptyRemote, valid_longData⟩
/-- The default letters with upper-case digits, and other letters with lower-case digits. -/
theorem witness_LineDeterminesFrame :
    MarkersOk defaultLine ∧ MarkersOk ⟨fun t k => match t, k with
      | .standard, .data => 0x61#8 | .standard, .remote => 0x7A#8
      | .extended, .data => 0x41#8 | .extended, .remote => 0x5A#8, false⟩ ∧
      ValidProtocolFrame longData ∧ ∃ bs, encodeLine defaultLine longData = .ok bs := by
  refine ⟨⟨fun k => ?_, fun k => ?_, fun t => ?_⟩, ⟨fun k => ?_, fun k => ?_, fun t => ?_⟩, valid_longData, _, rfl⟩
  all_goals first | (cases k <;> decide) | (cases t <;> decide)
theorem witness_LineLengthFromFirstBytes :
    ValidProtocolFrame longData ∧ ∃ t, exec (.encodeLine longData) stale = .next t := ⟨valid_longData, _, rfl⟩

/-- The stale state holds a line. -/
theorem invariant_stale : Invariant stale :=
  ⟨by decide, .inr (.inr ⟨[0x74#8, 0x37#8, 0x46#8, 0x46#8, 0x30#8, 0x0D#8],
    ⟨rfl, rfl, rfl, rfl, rfl, by decide⟩, by decide, by decide, by decide, by decide⟩)⟩

theorem witness_LineEndsAtFirstZero : Invariant stale ∧ stale.block.lineLen ≠ 0#5 :=
  ⟨invariant_stale, by decide⟩
theorem witness_ReceivePathLine :
    (⟨stdMax, .data, 2#8, some ⟨8#8, eight⟩⟩ : DriverFrame).wf = true ∧
      (hostAt [⟨.receive, .issue (encode (.toProtocol ⟨stdMax, .data, 2#8, some ⟨8#8, eight⟩⟩))⟩,
        ⟨.receive, .forward 0xB#4⟩]).inputs =
        ⟨.receive, .issue (encode (.toProtocol ⟨stdMax, .data, 2#8, some ⟨8#8, eight⟩⟩))⟩ ::
          ⟨.receive, .forward 0xB#4⟩ :: [] := ⟨by decide, rfl⟩
theorem witness_OperationFrames :
    (∃ t, exec (.encodeLine longData) stale = .next t) ∧ ∃ t, exec (.idStd 0x800#32) stale = .next t :=
  ⟨⟨_, rfl⟩, _, rfl⟩
theorem witness_LineWriteLoop : stale.block.line.wf = true ∧ stale.block.line ≠ [] := by decide
theorem witness_LineCellWriteRead :
    stale.block.line.wf = true ∧ (0 < 27 ∧ 26 < 27) ∧
      ∀ i < 27, stale.block.line.read i = (stale.block.line.write 26 0x00#8).read i := by decide
theorem witness_StepKeepsInvariant :
    Invariant (hostAt [⟨.receive, .issue ⟨0xC#4, 0#128⟩⟩]) ∧
      ∃ t, step (hostAt [⟨.receive, .issue ⟨0xC#4, 0#128⟩⟩]) = .next t := ⟨invariant_stale, _, rfl⟩

theorem witness_OnlyListedCodesWritten :
    (nextOf (issue ⟨0x0#4, 0#128⟩ stale)).any (fun t => t.block.resValid == 0#1) = true := by decide

/-- A state that holds a protocol frame, and the host's next interaction. -/
def holdingProtocol (e : HostEvent) : State :=
  { stale with block := frameBlock .protocolFrame (protocolWord longData), inputs := [e] }

theorem invariant_holdingProtocol (e : HostEvent) : Invariant (holdingProtocol e) :=
  ⟨rfl, .inr (.inl (.inr (.inr ⟨Laws.holdsFrame_complete .protocolFrame _ stale,
    longData, valid_longData, Laws.wordIs_protocolWord valid_longData⟩)))⟩

theorem witness_ForwardedProtocolFrameAccepted_line :
    Invariant (holdingProtocol ⟨.receive, .forward 0xB#4⟩) ∧
      (holdingProtocol ⟨.receive, .forward 0xB#4⟩).block.resKind = 3#3 ∧
      (holdingProtocol ⟨.receive, .forward 0xB#4⟩).inputs = ⟨.receive, .forward 0xB#4⟩ :: [] :=
  ⟨invariant_holdingProtocol _, rfl, rfl⟩
theorem witness_ForwardedProtocolFrameAccepted_driver :
    Invariant (holdingProtocol ⟨.transmit, .forward 0xA#4⟩) ∧
      (holdingProtocol ⟨.transmit, .forward 0xA#4⟩).block.resKind = 3#3 ∧
      (holdingProtocol ⟨.transmit, .forward 0xA#4⟩).inputs = ⟨.transmit, .forward 0xA#4⟩ :: [] :=
  ⟨invariant_holdingProtocol _, rfl, rfl⟩
theorem witness_DutifulReceivePathRenders :
    ∃ t, issue ⟨0x9#4, 0x0807060504030201_0008080400000001#128⟩ (hostAt [⟨.receive, .forward 0xB#4⟩]) = .next t ∧
      t.inputs = ⟨.receive, .forward 0xB#4⟩ :: [] ∧ dropsAbsences t :=
  ⟨_, rfl, rfl, fun absent => absurd absent (show ¬ ((1#1 : BitVec 1) = 0#1) by decide)⟩
theorem witness_ReadsReturnRegisters :
    [ReadPort.resValid, .resCause, .resKind, .resFrame, .lineLen, .lineCell 0, .lineCell 26, .lineCell 27].all
      (fun p => (hostAt [⟨.receive, .read p⟩]).inputs = ⟨.receive, .read p⟩ :: []) = true := by decide
theorem witness_OnlyAnAbsentCellStops :
    presentable ⟨.receive, .read (.lineCell 26)⟩ = true ∧ presentable ⟨.receive, .read (.lineCell 27)⟩ = false ∧
      (∃ t, step (hostAt [⟨.receive, .read (.lineCell 26)⟩]) = .next t) ∧
      step (hostAt [⟨.receive, .read (.lineCell 27)⟩]) = .fault (.noLineCell 27) :=
  ⟨by decide, by decide, ⟨_, rfl⟩, rfl⟩
theorem witness_ResultsHoldBetweenOperations :
    ([⟨.receive, .read .resFrame⟩, ⟨.transmit, .drop⟩, ⟨.receive, .read (.lineCell 26)⟩] : List HostEvent).all
      (fun e => keepsResults e && presentable e) = true := by decide
/-- The receive context issues, the transmit context drops and reads, the receive context reads twice. -/
theorem witness_SerializedContextReadsItsOwnResult :
    (∀ e ∈ ([⟨.transmit, .drop⟩, ⟨.transmit, .read .resKind⟩, ⟨.receive, .read .resValid⟩] : List HostEvent),
      presentable e = true ∧ e.act ≠ .reset ∧ (e.ctx = .receive → keepsResults e = true)) ∧
      serialized none [] (⟨.receive, .issue ⟨0x1#4, 0x7FF#128⟩⟩ :: ([⟨.transmit, .drop⟩,
        ⟨.transmit, .read .resKind⟩, ⟨.receive, .read .resValid⟩] ++ [⟨.receive, .read .resFrame⟩])) = true ∧
      ∃ t v, step (hostAt (⟨.receive, .issue ⟨0x1#4, 0x7FF#128⟩⟩ :: ([⟨.transmit, .drop⟩,
        ⟨.transmit, .read .resKind⟩, ⟨.receive, .read .resValid⟩] ++ ⟨.receive, .read .resFrame⟩ :: []))) = .next t ∧
        readPort t.block .resFrame = .ok v :=
  ⟨by decide, by decide, _, _, rfl, rfl⟩
/-- A schedule that R109 forbids: another context issues before the read. -/
theorem test_serialized_refuses_interleaving :
    serialized none [] [⟨.receive, .issue ⟨0x1#4, 0#128⟩⟩, ⟨.transmit, .issue ⟨0x2#4, 0#128⟩⟩,
      ⟨.receive, .read .resFrame⟩] = false := by decide
theorem witness_ContextsAreAlike :
    (∃ t, step { stale with inputs := [⟨.receive, .issue ⟨0x1#4, 0x7FF#128⟩⟩] } = .next t) ∧
      ∃ f, step { stale with inputs := [⟨.receive, .read (.lineCell 27)⟩] } = .fault f :=
  ⟨⟨_, rfl⟩, _, rfl⟩

end Sys2Proof.Tests
end

section
/-! PROOFS. The statements of 10_state.md: what the result registers hold at reset. -/

namespace Sys2Proof.Proofs

open Sys2Proof.Machine Sys2Proof.Safety Sys2Proof.Laws

/-- Reset lists no LINE cell, as an absence and a frame result leave it (60_exceptions.md R100, R101). -/
@[simp] theorem reset_line : Block.reset.line = lineCleared := rfl

theorem lineCleared_reset : LineCleared Block.reset := by
  refine ⟨fun i _ => ?cell, rfl⟩
  case cell => rw [reset_line, read_lineCleared]

/-- Reset leaves what an absence leaves, except that RES_CAUSE is 0, a cause no absence has (10_state.md R24). -/
theorem holdsAbsence_reset : HoldsAbsence Block.reset 0#4 :=
  ⟨rfl, rfl, rfl, rfl, lineCleared_reset⟩

/-- Settles O1: the registers of an absence with cause 0 are the reset column of 10_state.md section 3. -/
theorem resetValues : Obligations.ResetValues := by
  unfold Obligations.ResetValues
  obtain ⟨valid, cause, kind, frame, cells, lineLen⟩ := holdsAbsence_reset
  exact ⟨valid, cause, kind, frame, cells, lineLen⟩

end Sys2Proof.Proofs
end

section
/-! PROOFS. The statements of 40_identifier.md: the identifier constructors and conversions. All four operations
check an identifier and conclude with the identifier's success write, so what they leave is said once. -/

namespace Sys2Proof.Proofs

open Sys2Proof.Machine Sys2Proof.Safety Sys2Proof.Laws

/-! ### How an operation ends -/

/-- A failing check ends the operation in an absence with its cause (60_exceptions.md R100, R105). -/
theorem concludes_absent {α : Type} {r : Except Cause α} {c : Cause} (failed : r = .error c)
    (success : α → State → State) (s : State) :
    ∃ t, conclude r success s = .next t ∧ HoldsAbsence t.block c.code ∧ HostSideKept s t :=
  ⟨raiseAbsent c s, by rw [failed, conclude_error], holdsAbsence_raiseAbsent c s,
    hostSideKept_raiseAbsent c s⟩

/-- An identifier that passes its check is written as an IDENTIFIER result, every bit but IDE and ID 0
(30_encoding.md R44, 60_exceptions.md R101). -/
theorem concludes_identifier {r : Except Cause Identifier} {id : Identifier} (passed : r = .ok id)
    (s : State) :
    ∃ t, conclude r completeIdentifier s = .next t ∧ HoldsFrame t.block 1#3 t.block.resFrame ∧
      WordIs t.block.resFrame id.value (ideBit id.tag) 0#1 0#1 0#8 0#8 (fun _ => 0#8) ∧
      HostSideKept s t :=
  ⟨complete .identifier (idWord id) s, by rw [passed, conclude_ok, completeIdentifier],
    holdsFrame_complete .identifier (idWord id) s, wordIs_idWord id,
    hostSideKept_complete .identifier (idWord id) s⟩

/-- An operation whose check passes exactly the valid identifiers: the identifier is written, or the operation
ends in absence with ID_RANGE (40_identifier.md R60). -/
theorem concludes_identifier_or_absent {r : Except Cause Identifier} {id : Identifier}
    (passed : ValidIdentifier id → r = .ok id) (failed : ¬ ValidIdentifier id → r = .error .idRange)
    (s : State) :
    (ValidIdentifier id →
      ∃ t, conclude r completeIdentifier s = .next t ∧ HoldsFrame t.block 1#3 t.block.resFrame ∧
        WordIs t.block.resFrame id.value (ideBit id.tag) 0#1 0#1 0#8 0#8 (fun _ => 0#8) ∧
        HostSideKept s t) ∧
    (¬ ValidIdentifier id →
      ∃ t, conclude r completeIdentifier s = .next t ∧ HoldsAbsence t.block 1#4 ∧ HostSideKept s t) :=
  ⟨fun valid => concludes_identifier (passed valid) s,
    fun invalid => concludes_absent (failed invalid) completeIdentifier s⟩

/-! ### The four operations -/

section Operations

variable (v : BitVec 32) (id : Identifier) (s : State)

theorem exec_idStd : exec (.idStd v) s = conclude (newIdentifier .standard v) completeIdentifier s := rfl

theorem exec_idExt : exec (.idExt v) s = conclude (newIdentifier .extended v) completeIdentifier s := rfl

theorem exec_toProtocolId :
    exec (.toProtocolId id) s = conclude (toProtocolId id) completeIdentifier s := rfl

theorem exec_toDriverId : exec (.toDriverId id) s = conclude (toDriverId id) completeIdentifier s := rfl

theorem validIdentifier_standard : ValidIdentifier ⟨.standard, v⟩ ↔ v.toNat ≤ 0x7FF := Iff.rfl

theorem validIdentifier_extended : ValidIdentifier ⟨.extended, v⟩ ↔ v.toNat ≤ 0x1FFFFFFF := Iff.rfl

end Operations

/-- Settles O11: a raw value is in the Standard range exactly when the Standard identifier of it is valid. -/
theorem idStdConstructs : Obligations.IdStdConstructs := by
  unfold Obligations.IdStdConstructs
  refine ⟨decode_idStd, fun v s => ?_⟩
  rw [exec_idStd, ← not_le, ← validIdentifier_standard]
  exact concludes_identifier_or_absent newIdentifier_valid newIdentifier_invalid s

/-- Settles O12: a raw value is in the Extended range exactly when the Extended identifier of it is valid. -/
theorem idExtConstructs : Obligations.IdExtConstructs := by
  unfold Obligations.IdExtConstructs
  refine ⟨decode_idExt, fun v s => ?_⟩
  rw [exec_idExt, ← not_le, ← validIdentifier_extended]
  exact concludes_identifier_or_absent newIdentifier_valid newIdentifier_invalid s

/-- Settles O13: both conversions answer the identifier itself, or the cause ID_RANGE. -/
theorem identifierConversions : Obligations.IdentifierConversions := by
  unfold Obligations.IdentifierConversions
  constructor
  case left =>
    intro w
    exact ⟨readIdentifier w, identifierOf_readIdentifier w, decode_toProtocolId w, decode_toDriverId w⟩
  case right =>
    intro id s i conversion
    simp only [List.mem_cons, List.not_mem_nil, or_false] at conversion
    rcases conversion with rfl | rfl
    · rw [exec_toProtocolId]
      exact concludes_identifier_or_absent toProtocolId_valid toProtocolId_invalid s
    · rw [exec_toDriverId]
      exact concludes_identifier_or_absent toDriverId_valid toDriverId_invalid s

end Sys2Proof.Proofs
end

section
/-! PROOFS. The statements of 41_frame_construct.md: the four frame constructors. Each concludes its constructor's
answer with the success write of its frame type, so what a built frame leaves is said once for both types. -/

namespace Sys2Proof.Proofs

open Sys2Proof.Machine Sys2Proof.Safety Sys2Proof.Laws

/-! ### How a constructor ends -/

/-- A constructor that answers `x` leaves a result of kind `k` whose word has the fields of the result format
`format x` (30_encoding.md R44, 60_exceptions.md R101). -/
theorem concludes_frame {α : Type} {r : Except Cause α} {x : α} (k : FrameResult) (format : α → FrameWord)
    (built : r = .ok x) {id : BitVec 32} {ide rtr pp : BitVec 1} {len plen : BitVec 8} {data : Nat → Byte}
    (fields : WordIs (format x) id ide rtr pp len plen data) (s : State) :
    ∃ t, conclude r (fun y => complete k (format y)) s = .next t ∧
      HoldsFrame t.block k.code t.block.resFrame ∧
      WordIs t.block.resFrame id ide rtr pp len plen data ∧ HostSideKept s t :=
  ⟨complete k (format x) s, by rw [built, conclude_ok], holdsFrame_complete k (format x) s, fields,
    hostSideKept_complete k (format x) s⟩

/-! ### The data constructors on the payload a word holds -/

section WellFormedPayload

variable {id : Identifier} {p : Payload}

/-- All the bytes held are bytes of the frame (41_frame_construct.md R70). -/
theorem pfData_wellFormed (h : ValidIdentifier id) (n : p.len.toNat ≤ 8) (wf : p.wf = true) :
    pfData id p = .ok ⟨id, .data, p.len, p.held⟩ := by
  rw [pfData_valid h n, List.take_of_length_le (length_held wf n).le]

/-- The payload object is the argument itself, present also with no bytes (41_frame_construct.md R74). -/
theorem dfData_wellFormed (h : ValidIdentifier id) (n : p.len.toNat ≤ 8) (wf : p.wf = true) :
    dfData id p = .ok ⟨id, .data, p.len, some p⟩ := by
  rw [dfData_valid h n, List.take_of_length_le (length_held wf n).le]

end WellFormedPayload

/-! ### The four operations -/

section Operations

variable (id : Identifier) (p : Payload) (n : BitVec 8) (s : State)

theorem exec_pfNewData : exec (.pfNewData id p) s = conclude (pfData id p) completeProtocol s := rfl

theorem exec_pfNewRemote : exec (.pfNewRemote id n) s = conclude (pfRemote id n) completeProtocol s := rfl

theorem exec_dfNewData : exec (.dfNewData id p) s = conclude (dfData id p) completeDriver s := rfl

theorem exec_dfNewRemote : exec (.dfNewRemote id n) s = conclude (dfRemote id n) completeDriver s := rfl

end Operations

/-- Settles O15: the frame built holds the whole payload argument, and its protocol word carries no PP or PLEN. -/
theorem pfNewDataConstructs : Obligations.PfNewDataConstructs := by
  unfold Obligations.PfNewDataConstructs
  refine ⟨fun w => ⟨readIdentifier w, readPayload w, identifierOf_readIdentifier w, payloadOf_readPayload w,
    decode_pfNewData w⟩, fun id p s => ?_⟩
  rw [exec_pfNewData]
  refine ⟨fun valid fits wf => ?built, fun valid big => ?oversize, fun invalid => ?invalid⟩
  case built =>
    exact concludes_frame .protocolFrame protocolWord (pfData_wellFormed valid fits wf)
      (wordIs_protocolWord_data rfl (length_held wf fits)) s
  case oversize => exact concludes_absent (pfData_oversize valid big) completeProtocol s
  case invalid => exact concludes_absent (pfData_invalid invalid p) completeProtocol s

/-- Settles O16: the frame built is remote, and the protocol word of a remote frame has LEN and no DATA. -/
theorem pfNewRemoteConstructs : Obligations.PfNewRemoteConstructs := by
  unfold Obligations.PfNewRemoteConstructs
  refine ⟨fun w => ⟨readIdentifier w, identifierOf_readIdentifier w, decode_pfNewRemote w⟩, fun id n s => ?_⟩
  rw [exec_pfNewRemote]
  refine ⟨fun valid fits => ?built, fun valid big => ?oversize, fun invalid => ?invalid⟩
  case built =>
    exact concludes_frame .protocolFrame protocolWord (pfRemote_valid valid fits)
      (wordIs_protocolWord_remote rfl) s
  case oversize => exact concludes_absent (pfRemote_oversize valid big) completeProtocol s
  case invalid => exact concludes_absent (pfRemote_invalid invalid n) completeProtocol s

/-- Settles O17: the frame built has the payload argument as its payload object, so the driver word has PP 1 and
PLEN = LEN, for a payload of no bytes too. -/
theorem dfNewDataConstructs : Obligations.DfNewDataConstructs := by
  unfold Obligations.DfNewDataConstructs
  refine ⟨fun w => ⟨readIdentifier w, readPayload w, identifierOf_readIdentifier w, payloadOf_readPayload w,
    decode_dfNewData w⟩, fun id p s => ?_⟩
  rw [exec_dfNewData]
  refine ⟨fun valid fits wf => ?built, fun valid big => ?oversize, fun invalid => ?invalid⟩
  case built =>
    exact concludes_frame .driverFrame driverWord (dfData_wellFormed valid fits wf)
      (wordIs_driverWord_some rfl (length_held wf fits).le) s
  case oversize => exact concludes_absent (dfData_oversize valid big) completeDriver s
  case invalid => exact concludes_absent (dfData_invalid invalid p) completeDriver s

/-- Settles O18: the frame built is remote without a payload object, so the driver word has PP 0 and PLEN 0. -/
theorem dfNewRemoteConstructs : Obligations.DfNewRemoteConstructs := by
  unfold Obligations.DfNewRemoteConstructs
  refine ⟨fun w => ⟨readIdentifier w, identifierOf_readIdentifier w, decode_dfNewRemote w⟩, fun id n s => ?_⟩
  rw [exec_dfNewRemote]
  refine ⟨fun valid fits => ?built, fun valid big => ?oversize, fun invalid => ?invalid⟩
  case built =>
    exact concludes_frame .driverFrame driverWord (dfRemote_valid valid fits) (wordIs_driverWord_none rfl) s
  case oversize => exact concludes_absent (dfRemote_oversize valid big) completeDriver s
  case invalid => exact concludes_absent (dfRemote_invalid invalid n) completeDriver s

end Sys2Proof.Proofs
end

section
/-! PROOFS. The statements of 42_translate.md: the two translators. Once the identifier is valid, each route is one
constructor of 41_frame_construct.md, so the routes are said once and the constructors' lemmas do the rest. -/

namespace Sys2Proof.Proofs

open Sys2Proof.Machine Sys2Proof.Safety Sys2Proof.Laws

/-! ### The payloads the readings give (30_encoding.md R43) -/

section ReadPayloads

variable {w : FrameWord}

theorem readDriver_payload_absent (pp : w.extractLsb' 34 1 = 0#1) : (readDriver w).payload = none := by
  simp [readDriver, fieldPp, pp]

theorem readDriver_payload_present (pp : w.extractLsb' 34 1 = 1#1) :
    (readDriver w).payload = some (readPayload w) := by
  simp [readDriver, fieldPp, pp]

/-- The protocol reading holds LEN bytes of a data frame whose length fits. -/
theorem length_readProtocol_data (data : (readProtocol w).kind = .data)
    (fits : (w.extractLsb' 40 8).toNat ≤ 8) :
    (readProtocol w).payload.length = (w.extractLsb' 40 8).toNat := by
  have kind : kindOfBit (fieldRtr w) = .data := data
  rw [readProtocol, length_dataBytes, kind]
  exact if_pos fits

/-- The protocol reading holds no bytes of a remote frame. -/
theorem readProtocol_payload_remote (remote : (readProtocol w).kind = .remote) :
    (readProtocol w).payload = [] := by
  have kind : kindOfBit (fieldRtr w) = .remote := remote
  simp [readProtocol, kind, protocolPayloadLength, dataBytes]

end ReadPayloads

/-! ### The routes (42_translate.md R80, R82) -/

section Routes

variable {id : Identifier} (valid : ValidIdentifier id) (n : BitVec 8)

include valid

/-- A remote driver frame goes by its DLC alone. -/
theorem toProtocol_remote (p : Option Payload) : toProtocol ⟨id, .remote, n, p⟩ = pfRemote id n :=
  toProtocol_valid (f := ⟨id, .remote, n, p⟩) valid

/-- A driver data frame with a payload object goes by that object alone. -/
theorem toProtocol_data_some (p : Payload) : toProtocol ⟨id, .data, n, some p⟩ = pfData id p :=
  toProtocol_valid (f := ⟨id, .data, n, some p⟩) valid

/-- A driver data frame with no payload object has no check left to fail. -/
theorem toProtocol_data_none : toProtocol ⟨id, .data, n, none⟩ = .ok ⟨id, .data, 0#8, []⟩ :=
  calc toProtocol ⟨id, .data, n, none⟩
      = pfData id emptyPayload := toProtocol_valid (f := ⟨id, .data, n, none⟩) valid
    _ = .ok ⟨id, .data, 0#8, []⟩ := pfData_wellFormed valid (Nat.zero_le 8) rfl

/-- A remote protocol frame goes by its length alone. -/
theorem toDriver_remote (bs : List Byte) : toDriver ⟨id, .remote, n, bs⟩ = dfRemote id n := by
  rw [toDriver_valid (f := ⟨id, .remote, n, bs⟩) valid, routeToDriver, castToLengthCode_eq]

/-- A protocol data frame goes by its length and bytes as a payload argument. -/
theorem toDriver_data (bs : List Byte) : toDriver ⟨id, .data, n, bs⟩ = dfData id ⟨n, bs⟩ :=
  toDriver_valid (f := ⟨id, .data, n, bs⟩) valid

end Routes

/-! ### The two operations -/

theorem exec_toProtocol (f : DriverFrame) (s : State) :
    exec (.toProtocol f) s = conclude (toProtocol f) completeProtocol s := rfl

theorem exec_toDriver (f : ProtocolFrame) (s : State) :
    exec (.toDriver f) s = conclude (toDriver f) completeDriver s := rfl

/-- Settles O20: each route answers what the protocol constructor it ends in answers. -/
theorem toProtocolTranslates : Obligations.ToProtocolTranslates := by
  unfold Obligations.ToProtocolTranslates
  refine ⟨fun w => ⟨readIdentifier w, kindOfBit (fieldRtr w), (readDriver w).payload,
    identifierOf_readIdentifier w, rtrBit_kindOfBit (fieldRtr w), readDriver_payload_absent,
    fun pp => ⟨readPayload w, readDriver_payload_present pp, payloadOf_readPayload w⟩,
    decode_toProtocol w⟩, fun id dlc s => ?_⟩
  simp only [exec_toProtocol]
  refine ⟨fun valid fits p => ?remote, fun valid p fits wf => ?payload, fun valid => ?noPayload,
    fun invalid k p => ?invalid, fun valid big p => ?longRemote, fun valid p big => ?oversize⟩
  case remote =>
    exact concludes_frame .protocolFrame protocolWord
      ((toProtocol_remote valid dlc p).trans (pfRemote_valid valid fits)) (wordIs_protocolWord_remote rfl) s
  case payload =>
    exact concludes_frame .protocolFrame protocolWord
      ((toProtocol_data_some valid dlc p).trans (pfData_wellFormed valid fits wf))
      (wordIs_protocolWord_data rfl (length_held wf fits)) s
  case noPayload =>
    exact concludes_frame .protocolFrame protocolWord (toProtocol_data_none valid dlc)
      (wordIs_protocolWord_data rfl rfl) s
  case invalid =>
    exact concludes_absent (toProtocol_invalid (f := ⟨id, k, dlc, p⟩) invalid) completeProtocol s
  case longRemote =>
    exact concludes_absent ((toProtocol_remote valid dlc p).trans (pfRemote_oversize valid big))
      completeProtocol s
  case oversize =>
    exact concludes_absent ((toProtocol_data_some valid dlc p).trans (pfData_oversize valid big))
      completeProtocol s

/-- Settles O21: a valid data frame becomes the driver frame with its bytes as payload object, a remote frame one
without, and a length above 8 gets the cause of the driver constructor its kind is routed to. -/
theorem toDriverTranslates : Obligations.ToDriverTranslates := by
  unfold Obligations.ToDriverTranslates
  refine ⟨fun w => ⟨readIdentifier w, (readProtocol w).kind, (readProtocol w).payload,
    identifierOf_readIdentifier w, rtrBit_kindOfBit (fieldRtr w), bytesOf_dataBytes w _,
    readProtocol_payload_remote, length_readProtocol_data, decode_toDriver w⟩, fun ⟨id, kind, len, bs⟩ s => ?_⟩
  simp only [exec_toDriver]
  refine ⟨?data, fun valid fits remote => ?remote, fun invalid => ?invalid, fun valid big => ?oversize⟩
  case data =>
    rintro valid rfl
    have ⟨_, _, count⟩ := valid
    exact concludes_frame .driverFrame driverWord (toDriver_of_valid valid)
      (wordIs_driverWord_some (p := ⟨len, bs⟩) rfl (Nat.le_of_eq count)) s
  case remote =>
    subst remote
    exact concludes_frame .driverFrame driverWord
      ((toDriver_remote valid len bs).trans (dfRemote_valid valid fits)) (wordIs_driverWord_none rfl) s
  case invalid => exact concludes_absent (toDriver_invalid invalid) completeDriver s
  case oversize =>
    cases kind with
    | remote =>
      exact concludes_absent ((toDriver_remote valid len bs).trans (dfRemote_oversize valid big))
        completeDriver s
    | data =>
      exact concludes_absent ((toDriver_data valid len bs).trans (dfData_oversize valid big))
        completeDriver s

end Sys2Proof.Proofs
end

section
/-! PROOFS. The statements of 43_line_encode.md: ENCODE_LINE. A valid frame concludes with its rendered line, whose
bytes are told position by position; a failing check concludes with its cause. -/

namespace Sys2Proof.Proofs

open Sys2Proof.Machine Sys2Proof.Safety Sys2Proof.Laws

/-! ### How ENCODE_LINE ends -/

theorem exec_encodeLine (f : ProtocolFrame) (s : State) :
    exec (.encodeLine f) s = conclude (encodeLine defaultLine f) completeLine s := rfl

/-- A line of at most 27 bytes is written to LINE from cell 0 (43_line_encode.md R91). -/
theorem concludes_line {r : Except Cause (List Byte)} {bs : List Byte} (rendered : r = .ok bs)
    (fits : bs.length ≤ 27) (s : State) :
    ∃ t, conclude r completeLine s = .next t ∧ HoldsLine t.block bs ∧ HostSideKept s t :=
  ⟨completeLine bs s, by rw [rendered, conclude_ok], holdsLine_completeLine bs fits s,
    hostSideKept_completeLine bs s⟩

/-! ### The rendered line of a valid frame -/

/-- A valid data frame holds as many payload bytes as its length says (10_state.md R22). -/
theorem length_payload_of_valid {f : ProtocolFrame} (valid : ValidProtocolFrame f) (data : f.kind = .data) :
    f.payload.length = f.len.toNat := by
  obtain ⟨-, -, shape⟩ := valid
  simpa only [data] using shape

section Rendered

variable (cfg : LineConfig)

/-- The line of a valid frame fits the 27 LINE cells (90_conflicts.md C1). -/
theorem length_renderLine_le {f : ProtocolFrame} (valid : ValidProtocolFrame f) :
    (renderLine cfg f).length ≤ 27 := by
  rw [length_renderLine cfg valid]
  exact (lineLength_bounds valid).2

/-- The last byte of a line is the terminator (30_encoding.md R46). -/
theorem getElem?_renderLine_last (f : ProtocolFrame) :
    (renderLine cfg f)[(renderLine cfg f).length - 1]? = some 0x0D#8 := by
  rw [← List.getLast?_eq_getElem?, getLast?_renderLine]

end Rendered

/-- Settles O26: on a valid frame the line is the rendered one, read off at each position; otherwise the check that
fails first gives the cause. -/
theorem encodeLineRenders : Obligations.EncodeLineRenders := by
  unfold Obligations.EncodeLineRenders
  refine ⟨fun w => ⟨readIdentifier w, (readProtocol w).kind, (readProtocol w).payload,
    identifierOf_readIdentifier w, rtrBit_kindOfBit (fieldRtr w), bytesOf_dataBytes w _,
    readProtocol_payload_remote, length_readProtocol_data, decode_encodeLine w⟩, fun f s => ?_⟩
  simp only [exec_encodeLine]
  refine ⟨fun valid => ?line, fun invalid => ?invalid, fun valid big => ?oversize⟩
  case line =>
    have ⟨validId, fits, _⟩ := valid
    obtain ⟨t, next, holds, kept⟩ :=
      concludes_line (encodeLine_valid defaultLine validId fits) (length_renderLine_le defaultLine valid) s
    exact ⟨t, renderLine defaultLine f, next, holds, kept, length_renderLine defaultLine valid,
      getElem?_renderLine_marker defaultLine f, getElem?_renderLine_id defaultLine f,
      getElem?_renderLine_length defaultLine f,
      fun data => getElem?_renderLine_payload defaultLine data (length_payload_of_valid valid data),
      getElem?_renderLine_last defaultLine f⟩
  case invalid => exact concludes_absent (encodeLine_invalid defaultLine invalid) completeLine s
  case oversize =>
    obtain ⟨id, kind, len, payload⟩ := f
    cases kind with
    | remote => exact concludes_absent (encodeLine_oversize defaultLine valid big) completeLine s
    | data => exact concludes_absent (encodeLine_oversize defaultLine valid big) completeLine s

end Sys2Proof.Proofs
end

section
/-! PROOFS. The statements of 60_exceptions.md: the cause a command reports. Every operation concludes with what its
checks answer, so the cause is a function of that answer, and the identifier check comes before any length check. -/

namespace Sys2Proof.Proofs

open Sys2Proof.Machine Sys2Proof.Safety Sys2Proof.Laws

/-! ### The reserved OP values (60_exceptions.md R103) -/

theorem issue_reserved {op : OpCode} (reserved : op ∈ reservedOps) (w : FrameWord) (s : State) :
    issue ⟨op, w⟩ s = .next (raiseAbsent .illegalOp s) := by
  rw [issue, decode_reserved op reserved]

/-- Settles O5: a reserved OP decodes to no operation, so its issue is the absence ILLEGAL_OP. -/
theorem reservedOpIsIllegal : Obligations.ReservedOpIsIllegal := by
  unfold Obligations.ReservedOpIsIllegal
  intro op w s reserved
  exact ⟨_, issue_reserved reserved w s, holdsAbsence_raiseAbsent .illegalOp s,
    hostSideKept_raiseAbsent .illegalOp s⟩

/-! ### The cause an operation reports -/

/-- The outcome is a completion that reports this cause, and a result exactly when the cause is NONE. -/
def ReportsCause (o : Host.Outcome State Fault Refusal) (code : BitVec 4) : Prop :=
  ∃ t, o = .next t ∧ t.block.resCause = code ∧ (t.block.resValid = 1#1 ↔ t.block.resCause = 0#4)

/-- An absence never carries NONE (60_exceptions.md R102). -/
theorem code_ne_zero (c : Cause) : c.code ≠ 0#4 := by
  cases c <;> decide

theorem reportsCause_raiseAbsent (c : Cause) (s : State) : ReportsCause (.next (raiseAbsent c s)) c.code :=
  ⟨raiseAbsent c s, rfl, rfl, by simp [code_ne_zero]⟩

/-- The success write leaves a result with cause NONE (60_exceptions.md R101). -/
def LeavesResult {α : Type} (success : α → State → State) : Prop :=
  ∀ x s, (success x s).block.resValid = 1#1 ∧ (success x s).block.resCause = 0#4

theorem leavesResult_identifier : LeavesResult completeIdentifier := fun _ _ => ⟨rfl, rfl⟩

theorem leavesResult_protocol : LeavesResult completeProtocol := fun _ _ => ⟨rfl, rfl⟩

theorem leavesResult_driver : LeavesResult completeDriver := fun _ _ => ⟨rfl, rfl⟩

theorem leavesResult_line : LeavesResult completeLine := fun _ _ => ⟨rfl, rfl⟩

/-- The code in RES_CAUSE that the answer of an operation's checks leads to (60_exceptions.md R102). -/
def causeCode {α : Type} : Except Cause α → BitVec 4
  | .ok _ => causeNone
  | .error c => c.code

/-- An operation reports the cause its checks answer. -/
theorem reportsCause_conclude {α : Type} {success : α → State → State} (leaves : LeavesResult success)
    {r : Except Cause α} {code : BitVec 4} (answer : causeCode r = code) (s : State) :
    ReportsCause (conclude r success s) code := by
  subst answer
  cases r with
  | ok x =>
    obtain ⟨valid, cause⟩ := leaves x s
    exact ⟨success x s, rfl, cause, iff_of_true valid cause⟩
  | error c => exact reportsCause_raiseAbsent c s

/-! ### The order of the checks (60_exceptions.md R104) -/

/-- ID_RANGE where the identifier is out of range, and what the later checks report otherwise. -/
def firstCause (id : Identifier) (later : BitVec 4) : BitVec 4 :=
  if idMax id.tag < id.value.toNat then 1#4 else later

/-- The cause `c` where the length is above 8, and NONE otherwise. -/
def oversizeCause (n : BitVec 8) (c : Cause) : BitVec 4 :=
  if 8 < n.toNat then c.code else 0#4

theorem not_validIdentifier_iff (id : Identifier) :
    ¬ ValidIdentifier id ↔ idMax id.tag < id.value.toNat := by
  rw [← idOk_iff, idOk, decide_eq_true_iff, not_le]

theorem causeCode_eq_firstCause {α : Type} {r : Except Cause α} {id : Identifier} {later : BitVec 4}
    (invalid : ¬ ValidIdentifier id → r = .error .idRange) (valid : ValidIdentifier id → causeCode r = later) :
    causeCode r = firstCause id later := by
  unfold firstCause
  split_ifs with out
  · rw [invalid ((not_validIdentifier_iff id).mpr out)]
    rfl
  · exact valid (not_not.mp (mt (not_validIdentifier_iff id).mp out))

theorem causeCode_eq_oversizeCause {α : Type} {r : Except Cause α} {n : BitVec 8} {c : Cause}
    (big : 8 < n.toNat → r = .error c) (fits : n.toNat ≤ 8 → ∃ x, r = .ok x) :
    causeCode r = oversizeCause n c := by
  unfold oversizeCause
  split_ifs with h
  · rw [big h]
    rfl
  · obtain ⟨x, ok⟩ := fits (not_lt.mp h)
    rw [ok]
    rfl

/-! ### The checks of each operation -/

theorem causeCode_newIdentifier (tag : IdTag) (v : BitVec 32) :
    causeCode (newIdentifier tag v) = firstCause ⟨tag, v⟩ 0#4 :=
  causeCode_eq_firstCause newIdentifier_invalid fun valid => congrArg causeCode (newIdentifier_valid valid)

section Constructors

variable (id : Identifier) (p : Payload) (n : BitVec 8)

theorem causeCode_toProtocolId : causeCode (toProtocolId id) = firstCause id 0#4 :=
  causeCode_eq_firstCause toProtocolId_invalid fun valid => congrArg causeCode (toProtocolId_valid valid)

theorem causeCode_toDriverId : causeCode (toDriverId id) = firstCause id 0#4 :=
  causeCode_eq_firstCause toDriverId_invalid fun valid => congrArg causeCode (toDriverId_valid valid)

theorem causeCode_pfData :
    causeCode (pfData id p) = firstCause id (oversizeCause p.len .payloadCapacity) :=
  causeCode_eq_firstCause (fun invalid => pfData_invalid invalid p) fun valid =>
    causeCode_eq_oversizeCause (pfData_oversize valid) fun fits => ⟨_, pfData_valid valid fits⟩

theorem causeCode_pfRemote : causeCode (pfRemote id n) = firstCause id (oversizeCause n .lengthRange) :=
  causeCode_eq_firstCause (fun invalid => pfRemote_invalid invalid n) fun valid =>
    causeCode_eq_oversizeCause (pfRemote_oversize valid) fun fits => ⟨_, pfRemote_valid valid fits⟩

theorem causeCode_dfData :
    causeCode (dfData id p) = firstCause id (oversizeCause p.len .payloadCapacity) :=
  causeCode_eq_firstCause (fun invalid => dfData_invalid invalid p) fun valid =>
    causeCode_eq_oversizeCause (dfData_oversize valid) fun fits => ⟨_, dfData_valid valid fits⟩

theorem causeCode_dfRemote : causeCode (dfRemote id n) = firstCause id (oversizeCause n .lengthRange) :=
  causeCode_eq_firstCause (fun invalid => dfRemote_invalid invalid n) fun valid =>
    causeCode_eq_oversizeCause (dfRemote_oversize valid) fun fits => ⟨_, dfRemote_valid valid fits⟩

end Constructors

theorem causeCode_encodeLine (cfg : LineConfig) (f : ProtocolFrame) :
    causeCode (encodeLine cfg f) = firstCause f.id (oversizeCause f.len (lengthCause f.kind)) :=
  causeCode_eq_firstCause (encodeLine_invalid cfg) fun valid =>
    causeCode_eq_oversizeCause (encodeLine_oversize cfg valid) fun fits => ⟨_, encodeLine_valid cfg valid fits⟩

/-- The driver constructors check the length that the frame's kind says, as ENCODE_LINE does. -/
theorem causeCode_toDriver (f : ProtocolFrame) :
    causeCode (toDriver f) = firstCause f.id (oversizeCause f.len (lengthCause f.kind)) := by
  obtain ⟨id, kind, n, bs⟩ := f
  refine causeCode_eq_firstCause toDriver_invalid fun valid =>
    causeCode_eq_oversizeCause (fun big => ?big) (fun fits => ?fits)
  case big =>
    cases kind with
    | data => exact (toDriver_data valid n bs).trans (dfData_oversize valid big)
    | remote => exact (toDriver_remote valid n bs).trans (dfRemote_oversize valid big)
  case fits =>
    cases kind with
    | data => exact ⟨_, (toDriver_data valid n bs).trans (dfData_valid valid fits)⟩
    | remote => exact ⟨_, (toDriver_remote valid n bs).trans (dfRemote_valid valid fits)⟩

/-- What the constructor that a driver frame is routed to reports of the length (42_translate.md R80). -/
def driverLengthCause : FrameKind → BitVec 8 → Option Payload → BitVec 4
  | .remote, dlc, _ => oversizeCause dlc .lengthRange
  | .data, _, some p => oversizeCause p.len .payloadCapacity
  | .data, _, none => 0#4

theorem causeCode_toProtocol (f : DriverFrame) :
    causeCode (toProtocol f) = firstCause f.id (driverLengthCause f.kind f.dlc f.payload) := by
  obtain ⟨id, kind, dlc, payload⟩ := f
  refine causeCode_eq_firstCause toProtocol_invalid fun valid => ?_
  cases kind with
  | remote =>
    rw [toProtocol_remote valid]
    exact causeCode_eq_oversizeCause (pfRemote_oversize valid) fun fits => ⟨_, pfRemote_valid valid fits⟩
  | data =>
    cases payload with
    | some p =>
      rw [toProtocol_data_some valid]
      exact causeCode_eq_oversizeCause (pfData_oversize valid) fun fits => ⟨_, pfData_valid valid fits⟩
    | none =>
      rw [toProtocol_data_none valid]
      rfl

/-- The cause of each operation, by its operand (60_exceptions.md R104). -/
def reportedCause : Instr → BitVec 4
  | .idStd v => firstCause ⟨.standard, v⟩ 0#4
  | .idExt v => firstCause ⟨.extended, v⟩ 0#4
  | .toProtocolId id => firstCause id 0#4
  | .toDriverId id => firstCause id 0#4
  | .pfNewData id p => firstCause id (oversizeCause p.len .payloadCapacity)
  | .pfNewRemote id n => firstCause id (oversizeCause n .lengthRange)
  | .dfNewData id p => firstCause id (oversizeCause p.len .payloadCapacity)
  | .dfNewRemote id n => firstCause id (oversizeCause n .lengthRange)
  | .toProtocol f => firstCause f.id (driverLengthCause f.kind f.dlc f.payload)
  | .toDriver f => firstCause f.id (oversizeCause f.len (lengthCause f.kind))
  | .encodeLine f => firstCause f.id (oversizeCause f.len (lengthCause f.kind))

theorem reportsCause_exec (i : Instr) (s : State) : ReportsCause (exec i s) (reportedCause i) := by
  cases i with
  | idStd v => exact reportsCause_conclude leavesResult_identifier (causeCode_newIdentifier .standard v) s
  | idExt v => exact reportsCause_conclude leavesResult_identifier (causeCode_newIdentifier .extended v) s
  | toProtocolId id => exact reportsCause_conclude leavesResult_identifier (causeCode_toProtocolId id) s
  | toDriverId id => exact reportsCause_conclude leavesResult_identifier (causeCode_toDriverId id) s
  | pfNewData id p => exact reportsCause_conclude leavesResult_protocol (causeCode_pfData id p) s
  | pfNewRemote id n => exact reportsCause_conclude leavesResult_protocol (causeCode_pfRemote id n) s
  | dfNewData id p => exact reportsCause_conclude leavesResult_driver (causeCode_dfData id p) s
  | dfNewRemote id n => exact reportsCause_conclude leavesResult_driver (causeCode_dfRemote id n) s
  | toProtocol f => exact reportsCause_conclude leavesResult_protocol (causeCode_toProtocol f) s
  | toDriver f => exact reportsCause_conclude leavesResult_driver (causeCode_toDriver f) s
  | encodeLine f => exact reportsCause_conclude leavesResult_line (causeCode_encodeLine defaultLine f) s

theorem reportsCause_issue {c : Command} {i : Instr} (decoded : decode c = .ok i) (s : State) :
    ReportsCause (issue c s) (reportedCause i) := by
  rw [issue, decoded]
  exact reportsCause_exec i s

/-! ### The checks on the raw bits of the operand (30_encoding.md R42, R43) -/

theorem idMax_tagOfBit (b : BitVec 1) :
    idMax (tagOfBit b) = if b = 0#1 then 0x7FF else 0x1FFFFFFF := by
  unfold tagOfBit
  split_ifs <;> rfl

section RawBits

variable (w : FrameWord)

theorem readDriver_id : (readDriver w).id = readIdentifier w := rfl

theorem readProtocol_id : (readProtocol w).id = readIdentifier w := rfl

theorem firstCause_readRawValue_standard (later : BitVec 4) :
    firstCause ⟨.standard, readRawValue w⟩ later =
      if 0x7FF < (w.extractLsb' 0 32).toNat then 1#4 else later := rfl

theorem firstCause_readRawValue_extended (later : BitVec 4) :
    firstCause ⟨.extended, readRawValue w⟩ later =
      if 0x1FFFFFFF < (w.extractLsb' 0 32).toNat then 1#4 else later := rfl

theorem firstCause_readIdentifier (later : BitVec 4) :
    firstCause (readIdentifier w) later =
      if (if w.extractLsb' 32 1 = 0#1 then 0x7FF else 0x1FFFFFFF) < (w.extractLsb' 0 32).toNat then 1#4
      else later := by
  rw [firstCause, readIdentifier, idMax_tagOfBit, fieldIde, fieldId]

theorem oversizeCause_readPayload :
    oversizeCause (readPayload w).len .payloadCapacity =
      if 8 < (w.extractLsb' 48 8).toNat then 3#4 else 0#4 := rfl

theorem oversizeCause_readLength :
    oversizeCause (readLength w) .lengthRange =
      if 8 < (w.extractLsb' 40 8).toNat then 2#4 else 0#4 := rfl

/-- A protocol operand: RTR says which cause a LEN above 8 has. -/
theorem oversizeCause_readProtocol :
    oversizeCause (readProtocol w).len (lengthCause (readProtocol w).kind) =
      if w.extractLsb' 33 1 = 1#1 ∧ 8 < (w.extractLsb' 40 8).toNat then 2#4
      else if w.extractLsb' 33 1 = 0#1 ∧ 8 < (w.extractLsb' 40 8).toNat then 3#4
      else 0#4 := by
  rw [readProtocol, fieldRtr, fieldLen]
  rcases BitVec.eq_zero_or_eq_one (w.extractLsb' 33 1) with data | remote
  · simp [data, kindOfBit, lengthCause, oversizeCause, Cause.code]
  · simp [remote, kindOfBit, lengthCause, oversizeCause, Cause.code]

/-- A driver operand: LEN is checked with RTR 1, PLEN with RTR 0 and PP 1, and nothing with both 0. -/
theorem driverLengthCause_readDriver :
    driverLengthCause (readDriver w).kind (readDriver w).dlc (readDriver w).payload =
      if w.extractLsb' 33 1 = 1#1 ∧ 8 < (w.extractLsb' 40 8).toNat then 2#4
      else if (w.extractLsb' 33 1 = 0#1 ∧ w.extractLsb' 34 1 = 1#1) ∧ 8 < (w.extractLsb' 48 8).toNat then 3#4
      else 0#4 := by
  rw [readDriver, fieldRtr, fieldPp, fieldLen]
  rcases BitVec.eq_zero_or_eq_one (w.extractLsb' 33 1) with data | remote
  · rcases BitVec.eq_zero_or_eq_one (w.extractLsb' 34 1) with absent | present
    · simp [data, absent, kindOfBit, driverLengthCause]
    · simp [data, present, kindOfBit, driverLengthCause, oversizeCause_readPayload]
  · simp [remote, kindOfBit, driverLengthCause, oversizeCause, Cause.code]

end RawBits

/-- Settles O33: a reserved OP is ILLEGAL_OP; for each assigned OP the checks of its operation, read on the raw
bits, are the conditions that name that OP, in the order of the list. -/
theorem causeIsFirstThatApplies : Obligations.CauseIsFirstThatApplies := by
  unfold Obligations.CauseIsFirstThatApplies
  intro op w s
  change ReportsCause (issue ⟨op, w⟩ s) _
  rcases reserved_or_assigned op with reserved | assigned
  case inl =>
    rw [issue_reserved reserved, if_pos (by exact reserved)]
    exact reportsCause_raiseAbsent .illegalOp s
  case inr =>
    obtain ⟨i, decoded⟩ := decode_assigned op assigned w
    convert reportsCause_issue decoded s using 1
    simp only [assignedOps, List.mem_cons, List.not_mem_nil, or_false] at assigned
    -- `simp` decides the conditions on OP and leaves the fields of the operand as they are written.
    rcases assigned with rfl | rfl | rfl | rfl | rfl | rfl | rfl | rfl | rfl | rfl | rfl <;> cases decoded <;>
      simp [-BitVec.extractLsb'_toNat, reportedCause, firstCause_readRawValue_standard,
        firstCause_readRawValue_extended, firstCause_readIdentifier, oversizeCause_readPayload,
        oversizeCause_readLength, oversizeCause_readProtocol, driverLengthCause_readDriver, readDriver_id,
        readProtocol_id]

end Sys2Proof.Proofs
end

section
/-! PROOFS. The statements of 30_encoding.md: the encoder and the decoder agree, the fields a reading does not list
are ignored, and a result word is read back as the value it was written from. -/

namespace Sys2Proof.Proofs

open Sys2Proof.Machine Sys2Proof.Safety Sys2Proof.Laws

/-! ### The readings of an encoded operand (30_encoding.md R43, R53) -/

section EncodedOperands

variable (id : Identifier)

/-- A word whose ID and IDE fields carry an identifier reads as that identifier. -/
theorem readIdentifier_assembleWord {fields : WordFields} (value : fields.id = id.value)
    (ide : fields.ide = bitOfTag id.tag) : readIdentifier (assembleWord fields) = id := by
  rw [readIdentifier, fieldIde_assembleWord, fieldId_assembleWord, value, ide, tagOfBit_bitOfTag]

theorem readRawValue_assembleWord (v : BitVec 32) : readRawValue (assembleWord { id := v }) = v :=
  fieldId_assembleWord _

theorem readLength_lengthFields (n : BitVec 8) : readLength (assembleWord (lengthFields id n)) = n :=
  fieldLen_assembleWord _

theorem readPayload_payloadFields {p : Payload} (wf : p.wf = true) :
    readPayload (assembleWord (payloadFields id p)) = p :=
  readPayload_of_wordIs wf (wordIs_packed (payloadFields id p) p.held rfl)

/-- The driver reading is decided by PP: with 0 no payload object, with 1 the payload argument. -/
theorem readDriver_driverFields {f : DriverFrame} (wf : f.wf = true) :
    readDriver (assembleWord (driverFields f)) = f := by
  obtain ⟨id, kind, dlc, payload⟩ := f
  cases payload with
  | none =>
    have fields := wordIs_assembleWord (driverFields ⟨id, kind, dlc, none⟩)
    simp only [driverFields, identifierFields, bitOfTag_eq_ideBit, bitOfKind_eq_rtrBit] at fields
    exact readDriver_of_wordIs_none (f := ⟨id, kind, dlc, none⟩) rfl fields
  | some p =>
    have fields := wordIs_packed (driverFields ⟨id, kind, dlc, some p⟩) p.held rfl
    simp only [driverFields, payloadFields, identifierFields, bitOfTag_eq_ideBit, bitOfKind_eq_rtrBit] at fields
    exact readDriver_of_wordIs_some (f := ⟨id, kind, dlc, some p⟩) rfl wf fields

theorem readProtocol_protocolFields {f : ProtocolFrame} (wf : f.wf = true) :
    readProtocol (assembleWord (protocolFields f)) = f := by
  have fields := wordIs_packed (protocolFields f) f.payload rfl
  simp only [protocolFields, identifierFields, bitOfTag_eq_ideBit, bitOfKind_eq_rtrBit] at fields
  exact readProtocol_of_wordIs wf fields

end EncodedOperands

/-- Settles O7: each operation's reading gives back the operand its fields were assembled from. -/
theorem decodeOfEncode : Obligations.DecodeOfEncode := by
  unfold Obligations.DecodeOfEncode
  intro i wf
  cases i with
  | idStd v => rw [encode, decode_idStd, readRawValue_assembleWord]
  | idExt v => rw [encode, decode_idExt, readRawValue_assembleWord]
  | toProtocolId id => rw [encode, decode_toProtocolId, readIdentifier_assembleWord id rfl rfl]
  | toDriverId id => rw [encode, decode_toDriverId, readIdentifier_assembleWord id rfl rfl]
  | pfNewData id p =>
    rw [encode, decode_pfNewData, readIdentifier_assembleWord id rfl rfl, readPayload_payloadFields id wf]
  | pfNewRemote id n =>
    rw [encode, decode_pfNewRemote, readIdentifier_assembleWord id rfl rfl, readLength_lengthFields]
  | dfNewData id p =>
    rw [encode, decode_dfNewData, readIdentifier_assembleWord id rfl rfl, readPayload_payloadFields id wf]
  | dfNewRemote id n =>
    rw [encode, decode_dfNewRemote, readIdentifier_assembleWord id rfl rfl, readLength_lengthFields]
  | toProtocol f => rw [encode, decode_toProtocol, readDriver_driverFields wf]
  | toDriver f => rw [encode, decode_toDriver, readProtocol_protocolFields wf]
  | encodeLine f => rw [encode, decode_encodeLine, readProtocol_protocolFields wf]

/-! ### Every OP (30_encoding.md R40, R52) -/

theorem not_mem_reservedOps_of_assigned {op : OpCode} (assigned : op ∈ assignedOps) : op ∉ reservedOps := by
  revert op; decide

/-- Settles O8: the reserved values are rejected, and a decoded operation has its command's OP. -/
theorem decoderIsTotal : Obligations.DecoderIsTotal := by
  unfold Obligations.DecoderIsTotal
  rintro ⟨op, w⟩
  rcases reserved_or_assigned op with reserved | assigned
  · exact .inl ⟨reserved, decode_reserved op reserved w⟩
  · obtain ⟨i, decoded⟩ := decode_assigned op assigned w
    obtain ⟨-, wf, sameOp⟩ := decode_ok decoded
    exact .inr ⟨not_mem_reservedOps_of_assigned assigned, i, decoded, wf, sameOp⟩

/-! ### Two words that agree on the fields of a reading (30_encoding.md R43) -/

section Agreement

variable {v w : FrameWord}

theorem dataBytes_congr {n : Nat}
    (bytes : ∀ i < n, v.extractLsb' (64 + 8 * i) 8 = w.extractLsb' (64 + 8 * i) 8) :
    dataBytes v n = dataBytes w n :=
  List.map_congr_left fun i below => bytes i (List.mem_range.mp below)

theorem readIdentifier_congr (value : v.extractLsb' 0 32 = w.extractLsb' 0 32)
    (ide : v.extractLsb' 32 1 = w.extractLsb' 32 1) : readIdentifier v = readIdentifier w := by
  rw [readIdentifier, readIdentifier, fieldIde, fieldIde, fieldId, fieldId, value, ide]

/-- A payload argument reads PLEN and the bytes below it that fit (30_encoding.md R43). -/
theorem readPayload_congr
    (same : v.extractLsb' 48 8 = w.extractLsb' 48 8 ∧
      ∀ i, i < 8 → i < (w.extractLsb' 48 8).toNat →
        v.extractLsb' (64 + 8 * i) 8 = w.extractLsb' (64 + 8 * i) 8) :
    readPayload v = readPayload w := by
  obtain ⟨plen, bytes⟩ := same
  rw [readPayload, readPayload, fieldPlen, fieldPlen, plen]
  congr 1
  exact dataBytes_congr fun i below =>
    bytes i (below.trans_le (Nat.min_le_right _ _)) (below.trans_le (Nat.min_le_left _ _))

/-- The driver reading reads the payload argument only where PP is 1. -/
theorem readDriver_congr (id : readIdentifier v = readIdentifier w)
    (rtr : v.extractLsb' 33 1 = w.extractLsb' 33 1) (len : v.extractLsb' 40 8 = w.extractLsb' 40 8)
    (pp : v.extractLsb' 34 1 = w.extractLsb' 34 1)
    (payload : w.extractLsb' 34 1 = 1#1 → readPayload v = readPayload w) : readDriver v = readDriver w := by
  rw [readDriver, readDriver, id, fieldRtr, fieldRtr, fieldLen, fieldLen, fieldPp, fieldPp, rtr, len, pp]
  rcases BitVec.eq_zero_or_eq_one (w.extractLsb' 34 1) with absent | present
  · rw [if_pos absent, if_pos absent]
  · rw [payload present]

/-- The protocol reading reads payload bytes only of a data frame whose LEN fits. -/
theorem readProtocol_congr (id : readIdentifier v = readIdentifier w)
    (rtr : v.extractLsb' 33 1 = w.extractLsb' 33 1) (len : v.extractLsb' 40 8 = w.extractLsb' 40 8)
    (bytes : w.extractLsb' 33 1 = 0#1 → (w.extractLsb' 40 8).toNat ≤ 8 →
      ∀ i < (w.extractLsb' 40 8).toNat, v.extractLsb' (64 + 8 * i) 8 = w.extractLsb' (64 + 8 * i) 8) :
    readProtocol v = readProtocol w := by
  rw [readProtocol, readProtocol, id, fieldRtr, fieldRtr, fieldLen, fieldLen, rtr, len]
  congr 1
  apply dataBytes_congr
  rcases BitVec.eq_zero_or_eq_one (w.extractLsb' 33 1) with data | remote
  · rw [data]
    by_cases fits : (w.extractLsb' 40 8).toNat ≤ 8
    · rw [show protocolPayloadLength (kindOfBit 0#1) (w.extractLsb' 40 8) = _ from if_pos fits]
      exact bytes data fits
    · rw [show protocolPayloadLength (kindOfBit 0#1) (w.extractLsb' 40 8) = 0 from if_neg fits]
      exact fun i below => absurd below (Nat.not_lt_zero i)
  · rw [remote]
    exact fun i below => absurd below (Nat.not_lt_zero i)

end Agreement

/-- The operations with the protocol reading are among those that read IDE, RTR and LEN (30_encoding.md R43). -/
theorem fields_of_protocolReading {op : OpCode} (reads : op ∈ [0xA#4, 0xB#4]) :
    op ∉ [0x1#4, 0x2#4] ∧ op ∈ [0x9#4, 0xA#4, 0xB#4] ∧ op ∈ [0x6#4, 0x8#4, 0x9#4, 0xA#4, 0xB#4] := by
  rcases List.mem_pair.mp reads with rfl | rfl <;> decide

/-- Settles O9: an assigned OP decodes by its reading, and the premises that name the OP make that reading's
operands equal. -/
theorem unreadFieldsIgnored : Obligations.UnreadFieldsIgnored := by
  unfold Obligations.UnreadFieldsIgnored
  intro op v w value ide rtr len pp payload bytes
  rcases reserved_or_assigned op with reserved | assigned
  · rw [decode_reserved op reserved, decode_reserved op reserved]
  have raw : readRawValue v = readRawValue w := value
  have identifier (reads : op ∉ [0x1#4, 0x2#4]) : readIdentifier v = readIdentifier w :=
    readIdentifier_congr value (ide reads)
  have protocol (reads : op ∈ [0xA#4, 0xB#4]) : readProtocol v = readProtocol w := by
    obtain ⟨readsIde, readsRtr, readsLen⟩ := fields_of_protocolReading reads
    exact readProtocol_congr (identifier readsIde) (rtr readsRtr) (len readsLen)
      fun data fits => bytes ⟨reads, data, fits⟩
  simp only [assignedOps, List.mem_cons, List.not_mem_nil, or_false] at assigned
  rcases assigned with rfl | rfl | rfl | rfl | rfl | rfl | rfl | rfl | rfl | rfl | rfl
  · rw [decode_idStd, decode_idStd, raw]
  · rw [decode_idExt, decode_idExt, raw]
  · rw [decode_toProtocolId, decode_toProtocolId, identifier (by decide)]
  · rw [decode_toDriverId, decode_toDriverId, identifier (by decide)]
  · rw [decode_pfNewData, decode_pfNewData, identifier (by decide),
      readPayload_congr (payload (.inl (by decide)))]
  · rw [decode_pfNewRemote, decode_pfNewRemote, identifier (by decide),
      show readLength v = readLength w from len (by decide)]
  · rw [decode_dfNewData, decode_dfNewData, identifier (by decide),
      readPayload_congr (payload (.inl (by decide)))]
  · rw [decode_dfNewRemote, decode_dfNewRemote, identifier (by decide),
      show readLength v = readLength w from len (by decide)]
  · rw [decode_toProtocol, decode_toProtocol,
      readDriver_congr (identifier (by decide)) (rtr (by decide)) (len (by decide)) (pp rfl)
        fun present => readPayload_congr (payload (.inr ⟨rfl, present⟩))]
  · rw [decode_toDriver, decode_toDriver, protocol (by decide)]
  · rw [decode_encodeLine, decode_encodeLine, protocol (by decide)]

/-! ### Result words (30_encoding.md R44, R45) -/

theorem readProtocol_protocolWord {f : ProtocolFrame} (valid : ValidProtocolFrame f) :
    readProtocol (protocolWord f) = f :=
  readProtocol_of_wordIs (wf_of_valid valid) (wordIs_protocolWord valid)

theorem readDriver_driverWord {f : DriverFrame} (valid : ValidDriverFrame f) :
    readDriver (driverWord f) = f := by
  obtain ⟨id, kind, dlc, payload⟩ := f
  obtain ⟨-, -, shape⟩ := valid
  cases payload with
  | none => exact readDriver_of_wordIs_none rfl (wordIs_driverWord_none rfl)
  | some p =>
    cases kind with
    | data =>
      obtain ⟨fits, count⟩ : p.len.toNat ≤ 8 ∧ p.held.length = p.len.toNat := shape
      have wf : p.wf = true := by simp [Payload.wf, count, fits]
      exact readDriver_of_wordIs_some rfl wf (wordIs_driverWord_some rfl count.le)
    | remote => exact False.elim shape

theorem readIdentifier_idWord (id : Identifier) : readIdentifier (idWord id) = id :=
  readIdentifier_of_wordIs (wordIs_idWord id)

/-- Settles O22: a result word's fields are those of the value it was written from. -/
theorem resultWordsReadBack : Obligations.ResultWordsReadBack := by
  unfold Obligations.ResultWordsReadBack
  refine ⟨fun f valid => ?protocol, fun f valid => ?driver, fun id => ?identifier⟩
  case protocol =>
    rw [decode_toDriver, decode_encodeLine, readProtocol_protocolWord valid]
    exact ⟨rfl, rfl⟩
  case driver => rw [decode_toProtocol, readDriver_driverWord valid]
  case identifier =>
    rw [decode_toProtocolId, decode_toDriverId, readIdentifier_idWord]
    exact ⟨rfl, rfl⟩

/-! ### Words and bytes the spec writes out -/

/-- Settles O6: the readings evaluated on the operand words of vectors I6, K12, K17, T1 and E2. -/
theorem sampleCommandsDecode : Obligations.SampleCommandsDecode := by
  unfold Obligations.SampleCommandsDecode
  refine ⟨?_, ?_, ?_, ?_, ?_⟩ <;> decide

/-- Settles O10: a line's command is assembled from the line's own field list. -/
theorem hostLineCommand : Obligations.HostLineCommand := by
  unfold Obligations.HostLineCommand
  exact fun l => ⟨rfl, wordIs_assembleWord l.fields⟩

/-- Settles O27: the digit is evaluated at its sixteen values, the markers by their definition. -/
theorem digitAndMarkerBytes : Obligations.DigitAndMarkerBytes := by
  unfold Obligations.DigitAndMarkerBytes
  exact ⟨by decide, rfl, rfl, rfl, rfl⟩

end Sys2Proof.Proofs
end

section
/-! PROOFS. What every operation writes: a block that depends on the operation alone, from whatever state it starts
(60_exceptions.md R113), and LINE as cells (20_memory.md R30). -/

namespace Sys2Proof.Proofs

open Sys2Proof.Machine Sys2Proof.Safety Sys2Proof.Laws

/-! ### An operation writes one block, whatever the state (60_exceptions.md R113) -/

/-- The operation completes from every state by writing this block and nothing else. -/
def Writes (operation : State → Host.Outcome State Fault Refusal) (b : Block) : Prop :=
  ∀ s, operation s = .next { s with block := b }

theorem writes_conclude {α : Type} {success : α → State → State} {written : α → Block}
    (writes : ∀ x s, success x s = { s with block := written x }) (r : Except Cause α) :
    ∃ b, Writes (conclude r success) b := by
  cases r with
  | ok x => exact ⟨written x, fun s => congrArg Host.Outcome.next (writes x s)⟩
  | error c => exact ⟨absentBlock c, fun _ => rfl⟩

theorem writes_exec (i : Instr) : ∃ b, Writes (exec i) b := by
  cases i with
  | idStd v => exact writes_conclude (fun _ _ => rfl) (newIdentifier .standard v)
  | idExt v => exact writes_conclude (fun _ _ => rfl) (newIdentifier .extended v)
  | toProtocolId id => exact writes_conclude (fun _ _ => rfl) (toProtocolId id)
  | toDriverId id => exact writes_conclude (fun _ _ => rfl) (toDriverId id)
  | pfNewData id p => exact writes_conclude (fun _ _ => rfl) (pfData id p)
  | pfNewRemote id n => exact writes_conclude (fun _ _ => rfl) (pfRemote id n)
  | dfNewData id p => exact writes_conclude (fun _ _ => rfl) (dfData id p)
  | dfNewRemote id n => exact writes_conclude (fun _ _ => rfl) (dfRemote id n)
  | toProtocol f => exact writes_conclude (fun _ _ => rfl) (toProtocol f)
  | toDriver f => exact writes_conclude (fun _ _ => rfl) (toDriver f)
  | encodeLine f => exact writes_conclude (fun _ _ => rfl) (encodeLine defaultLine f)

theorem issue_decoded {c : Command} {i : Instr} (decoded : decode c = .ok i) (s : State) :
    issue c s = exec i s := by
  rw [issue, decoded]

theorem issue_undecoded {c : Command} {e : DecodeError} (undecoded : decode c = .error e) (s : State) :
    issue c s = .next (raiseAbsent .illegalOp s) := by
  rw [issue, undecoded]

theorem writes_issue (c : Command) : ∃ b, Writes (issue c) b := by
  cases decoded : decode c with
  | ok i =>
    obtain ⟨b, writes⟩ := writes_exec i
    exact ⟨b, fun s => (issue_decoded decoded s).trans (writes s)⟩
  | error e => exact ⟨absentBlock .illegalOp, issue_undecoded decoded⟩

/-- Settles O34: both states get the one block the command writes. -/
theorem issueIsPure : Obligations.IssueIsPure := by
  unfold Obligations.IssueIsPure
  intro c s s'
  obtain ⟨b, writes⟩ := writes_issue c
  exact ⟨_, _, writes s, writes s', rfl, ⟨rfl, rfl⟩, rfl, rfl⟩

/-! ### The frame of every operation (60_exceptions.md R100, R101) -/

/-- A property of both the absences' blocks and the success writes' blocks is one of what the operation leaves. -/
theorem block_of_conclude {P : Block → Prop} {α : Type} {success : α → State → State} {r : Except Cause α}
    {s t : State} (next : conclude r success s = .next t) (absent : ∀ c, P (absentBlock c))
    (result : ∀ x s, P (success x s).block) : P t.block := by
  rcases conclude_cases success s r with ⟨x, -, eq⟩ | ⟨c, -, eq⟩
  · cases eq.symm.trans next
    exact result x s
  · cases eq.symm.trans next
    exact absent c

theorem lineCleared_absentBlock (c : Cause) : LineCleared (absentBlock c) :=
  ⟨fun i _ => read_lineCleared i, rfl⟩

theorem lineCleared_frameBlock (k : FrameResult) (w : FrameWord) : LineCleared (frameBlock k w) :=
  ⟨fun i _ => read_lineCleared i, rfl⟩

/-- An operation whose success write is `complete` clears LINE whichever way it ends. -/
theorem lineCleared_of_conclude {α : Type} {k : FrameResult} {format : α → FrameWord} {r : Except Cause α}
    {s t : State} (next : conclude r (fun x => complete k (format x)) s = .next t) : LineCleared t.block :=
  block_of_conclude next lineCleared_absentBlock fun x _ => lineCleared_frameBlock k (format x)

/-- Settles O35: an operation writes the block alone; a frame result and an absence clear LINE, and a line result and
an absence clear RES_FRAME. -/
theorem operationFrames : Obligations.OperationFrames := by
  unfold Obligations.OperationFrames
  intro i s t next
  constructor
  case left =>
    obtain ⟨b, writes⟩ := writes_exec i
    cases (writes s).symm.trans next
    exact ⟨rfl, rfl⟩
  case right =>
    cases i with
    | encodeLine f => exact block_of_conclude (P := fun b => b.resFrame = 0#128) next (fun _ => rfl) fun _ _ => rfl
    | _ => exact lineCleared_of_conclude next

/-! ### LINE as cells -/

/-- A byte of a list is 0x00 past the list's end, which is how the loop of 43_line_encode.md R91 reads it. -/
theorem getD_eq_ite (bs : List Byte) (i : Nat) :
    (if i < bs.length then bs.getD i 0#8 else 0x00#8) = bs.getD i unlistedByte := by
  split_ifs with inside
  · rfl
  · rw [List.getD_eq_default _ _ (not_lt.mp inside), unlistedByte]

/-- Settles O36: the two loops are `writeCells` of the line and of no bytes. -/
theorem lineWriteLoop : Obligations.LineWriteLoop := by
  unfold Obligations.LineWriteLoop
  intro m bs wf
  constructor
  case left =>
    simp only [getD_eq_ite]
    rw [lineBlock_line]
    exact writeCells_eq_lineImage bs m wf
  case right =>
    rw [absentBlock_line]
    exact writeCells_zero m wf

/-- Settles O37: the cells above 26, where no write reaches, all read 0x00, so equal reads below are equal data. -/
theorem lineCellWriteRead : Obligations.LineCellWriteRead := by
  unfold Obligations.LineCellWriteRead
  refine ⟨fun m a b wf below => ⟨wfFrom_write wf (Nat.zero_le a) below b, ?same, fun x other => ?other⟩,
    fun m n wfm wfn same => eq_of_read_eq wfm wfn fun a => ?extensional⟩
  case same => rw [read_write wf, if_pos rfl]
  case other => rw [read_write wf, if_neg other]
  case extensional =>
    rcases Nat.lt_or_ge a 27 with below | above
    · exact same a below
    · rw [read_above wfm above, read_above wfn above]

end Sys2Proof.Proofs
end

section
/-! PROOFS. The invariant: it speaks of the block alone, holds of every block the machine ever writes, and so is kept
by every step. -/

namespace Sys2Proof.Proofs

open Sys2Proof.Machine Sys2Proof.Safety Sys2Proof.Laws

/-! ### Every block that is ever written (10_state.md R13 to R18, R23) -/

/-- The invariant of a state with this block; the host's side plays no part in it. -/
def BlockInvariant (b : Block) : Prop :=
  b.line.wf = true ∧ (NoResult b ∨ FrameResultHeld b ∨ LineResultHeld b)

theorem invariant_iff (s : State) : Invariant s ↔ BlockInvariant s.block := Iff.rfl

theorem blockInvariant_reset : BlockInvariant Block.reset :=
  ⟨rfl, .inl ⟨0#4, by decide, holdsAbsence_reset⟩⟩

/-- The code of a cause that is raised is one of the listed ones (60_exceptions.md R102). -/
theorem code_mem_raised {c : Cause} (raised : c ≠ .renderFault) : c.code ∈ [1#4, 2#4, 3#4, 5#4] := by
  cases c with
  | renderFault => exact absurd rfl raised
  | _ => decide

theorem blockInvariant_absentBlock {c : Cause} (raised : c ≠ .renderFault) : BlockInvariant (absentBlock c) :=
  ⟨rfl, .inl ⟨c.code, List.mem_cons_of_mem _ (code_mem_raised raised),
    rfl, rfl, rfl, rfl, lineCleared_absentBlock c⟩⟩

theorem holdsFrame_frameBlock (k : FrameResult) (w : FrameWord) : HoldsFrame (frameBlock k w) k.code w :=
  ⟨rfl, rfl, rfl, rfl, lineCleared_frameBlock k w⟩

theorem blockInvariant_identifier {id : Identifier} (valid : ValidIdentifier id) :
    BlockInvariant (frameBlock .identifier (idWord id)) :=
  ⟨rfl, .inr (.inl (.inl ⟨holdsFrame_frameBlock .identifier _, id, valid, wordIs_idWord id⟩))⟩

theorem blockInvariant_protocol {f : ProtocolFrame} (valid : ValidProtocolFrame f) :
    BlockInvariant (frameBlock .protocolFrame (protocolWord f)) :=
  ⟨rfl, .inr (.inl (.inr (.inr ⟨holdsFrame_frameBlock .protocolFrame _, f, valid, wordIs_protocolWord valid⟩)))⟩

/-- The driver word of a valid data frame: PP 1 and PLEN = LEN (41_frame_construct.md R74). -/
theorem wordIs_driverOf_data {f : ProtocolFrame} (valid : ValidProtocolFrame f) (data : f.kind = .data) :
    WordIs (driverWord (driverOf f)) f.id.value (ideBit f.id.tag) 0#1 1#1 f.len f.len (byteAt f.payload) := by
  have count := length_payload_of_valid valid data
  obtain ⟨id, kind, len, payload⟩ := f
  subst data
  exact wordIs_driverWord_some (f := driverOf ⟨id, .data, len, payload⟩) (p := ⟨len, payload⟩) rfl count.le

/-- The driver word of a remote frame: PP 0 and PLEN 0 (41_frame_construct.md R76). -/
theorem wordIs_driverOf_remote {f : ProtocolFrame} (remote : f.kind = .remote) :
    WordIs (driverWord (driverOf f)) f.id.value (ideBit f.id.tag) 1#1 0#1 f.len 0#8 fun _ => 0#8 := by
  obtain ⟨id, kind, len, payload⟩ := f
  subst remote
  exact wordIs_driverWord_none (f := driverOf ⟨id, .remote, len, payload⟩) rfl

theorem canonicalDriver_driverOf {f : ProtocolFrame} (valid : ValidProtocolFrame f) :
    CanonicalDriver (driverWord (driverOf f)) := by
  refine ⟨f, valid, ?_⟩
  cases kind : f.kind with
  | data => exact wordIs_driverOf_data valid kind
  | remote => exact wordIs_driverOf_remote kind

theorem blockInvariant_driver {f : ProtocolFrame} (valid : ValidProtocolFrame f) :
    BlockInvariant (frameBlock .driverFrame (driverWord (driverOf f))) :=
  ⟨rfl, .inr (.inl (.inr (.inl ⟨holdsFrame_frameBlock .driverFrame _, canonicalDriver_driverOf valid⟩)))⟩

theorem holdsLine_lineBlock {bs : List Byte} (fits : bs.length ≤ 27) : HoldsLine (lineBlock bs) bs :=
  holdsLine_completeLine bs fits State.reset

/-- The line of a valid frame has at least the marker, three digits, the length digit and the terminator. -/
theorem le_length_renderLine (cfg : LineConfig) {f : ProtocolFrame} (valid : ValidProtocolFrame f) :
    6 ≤ (renderLine cfg f).length := by
  rw [length_renderLine cfg valid]
  exact (lineLength_bounds valid).1

theorem blockInvariant_line {f : ProtocolFrame} (valid : ValidProtocolFrame f) :
    BlockInvariant (lineBlock (renderLine defaultLine f)) := by
  refine ⟨?_, .inr (.inr ⟨renderLine defaultLine f, holdsLine_lineBlock (length_renderLine_le defaultLine valid),
    le_length_renderLine defaultLine valid, length_renderLine_le defaultLine valid,
    getLast?_renderLine defaultLine f, lineByte_of_mem_dropLast f⟩)⟩
  rw [lineBlock_line]
  exact wf_lineImage _

/-! ### Steps -/

/-- Issuing any command from any state leaves a block that meets the invariant. -/
theorem invariant_of_issue {c : Command} {s t : State} (next : issue c s = .next t) : Invariant t := by
  obtain ⟨t', next', -, written⟩ := issue_next c s
  cases next'.symm.trans next
  rw [invariant_iff]
  rcases written with ⟨k, raised, block⟩ | ⟨id, valid, block⟩ | ⟨f, valid, block⟩ | ⟨f, valid, block⟩ |
    ⟨f, valid, block⟩
  all_goals rw [block]
  · exact blockInvariant_absentBlock raised
  · exact blockInvariant_identifier valid
  · exact blockInvariant_protocol valid
  · exact blockInvariant_driver valid
  · exact blockInvariant_line valid

/-- Settles O38: reset leaves no result, with every cell 0x00. -/
theorem invariantAtReset : Obligations.InvariantAtReset := by
  unfold Obligations.InvariantAtReset
  exact (invariant_iff _).mpr blockInvariant_reset

/-- Settles O39: a step leaves the block alone, resets it, or issues a command, and the last two give the invariant
without needing it. -/
theorem stepKeepsInvariant : Obligations.StepKeepsInvariant := by
  unfold Obligations.StepKeepsInvariant
  intro s t holds next
  rcases step_cases next with kept | reset | ⟨c, rest, issued⟩
  · rw [invariant_iff, kept]
    exact holds
  · rw [invariant_iff, reset]
    exact blockInvariant_reset
  · exact invariant_of_issue issued

/-! ### The codes written (60_exceptions.md R100, R102) -/

/-- The registers' codes are listed ones that agree with RES_VALID, and an absence names its cause. -/
def CodesListed (b : Block) : Prop :=
  b.resCause ∈ [0#4, 1#4, 2#4, 3#4, 5#4] ∧ b.resKind ∈ [0#3, 1#3, 2#3, 3#3, 4#3] ∧
    (b.resValid = 1#1 ↔ b.resKind ≠ 0#3) ∧ (b.resValid = 0#1 → b.resCause ≠ 0#4)

theorem codesListed_absentBlock {c : Cause} (raised : c ≠ .renderFault) : CodesListed (absentBlock c) := by
  cases c with
  | renderFault => exact absurd rfl raised
  | _ => unfold CodesListed; decide

theorem codesListed_frameBlock (k : FrameResult) (w : FrameWord) : CodesListed (frameBlock k w) := by
  cases k <;> simp [CodesListed, FrameResult.code]

theorem codesListed_lineBlock (bs : List Byte) : CodesListed (lineBlock bs) := by
  simp [CodesListed]

/-- Settles O40: each kind of block an issue can write has listed codes. -/
theorem onlyListedCodesWritten : Obligations.OnlyListedCodesWritten := by
  unfold Obligations.OnlyListedCodesWritten
  intro c s
  obtain ⟨t, next, -, written⟩ := issue_next c s
  refine ⟨t, next, invariant_of_issue next, ?_⟩
  change CodesListed t.block
  rcases written with ⟨k, raised, block⟩ | ⟨id, -, block⟩ | ⟨f, -, block⟩ | ⟨f, -, block⟩ | ⟨f, -, block⟩
  all_goals rw [block]
  · exact codesListed_absentBlock raised
  · exact codesListed_frameBlock .identifier _
  · exact codesListed_frameBlock .protocolFrame _
  · exact codesListed_frameBlock .driverFrame _
  · exact codesListed_lineBlock _

/-! ### The bytes up to the first 0x00 (70_reset_and_hazards.md R125) -/

/-- LINE holds bytes that are none of them 0x00, as many as LINE_LEN says, and 0x00 after them. -/
def HoldsBytes (b : Block) (bs : List Byte) : Prop :=
  bs.length ≤ 27 ∧ b.lineLen.toNat = bs.length ∧ (∀ i < 27, b.line.read i = bs.getD i 0x00#8) ∧
    ∀ c ∈ bs, c ≠ 0x00#8

theorem holdsBytes_of_lineCleared {b : Block} (cleared : LineCleared b) : HoldsBytes b [] := by
  obtain ⟨cells, len⟩ := cleared
  exact ⟨Nat.zero_le 27, congrArg BitVec.toNat len, cells, fun c mem => absurd mem List.not_mem_nil⟩

/-- A line's terminator is not 0x00, and neither is a marker letter or a digit (43_line_encode.md R92). -/
theorem holdsBytes_of_lineResultHeld {b : Block} (held : LineResultHeld b) : ∃ bs, HoldsBytes b bs := by
  obtain ⟨bs, ⟨-, -, -, -, len, cells⟩, -, fits, last, before⟩ := held
  refine ⟨bs, fits, len, cells, fun c mem => ?_⟩
  rw [← List.dropLast_append_getLast? _ last, List.mem_append, List.mem_singleton] at mem
  rcases mem with inside | rfl
  · exact ne_zero_of_lineByte (before c inside)
  · decide

theorem exists_holdsBytes {s : State} (holds : Invariant s) : ∃ bs, HoldsBytes s.block bs := by
  obtain ⟨-, ⟨cause, -, absence⟩ | frame | line⟩ := holds
  · obtain ⟨-, -, -, -, cleared⟩ := absence
    exact ⟨[], holdsBytes_of_lineCleared cleared⟩
  · rcases frame with ⟨⟨-, -, -, -, cleared⟩, -⟩ | ⟨⟨-, -, -, -, cleared⟩, -⟩ | ⟨⟨-, -, -, -, cleared⟩, -⟩
    all_goals exact ⟨[], holdsBytes_of_lineCleared cleared⟩
  · exact holdsBytes_of_lineResultHeld line

/-- The first `n` cells, read past the end of the bytes as 0x00, up to the first 0x00, are the bytes. -/
theorem takeWhile_cells {bs : List Byte} (nonzero : ∀ c ∈ bs, c ≠ 0x00#8) (n : Nat) (fits : bs.length ≤ n) :
    ((List.range n).map fun i => bs.getD i 0x00#8).takeWhile (fun b => b != 0x00#8) = bs := by
  induction bs generalizing n with
  | nil => cases n <;> simp [List.range_succ_eq_map]
  | cons b bs ih =>
    obtain ⟨here, later⟩ := List.forall_mem_cons.mp nonzero
    cases n with
    | zero => exact absurd fits (Nat.not_succ_le_zero _)
    | succ n =>
      have rest := ih later n (Nat.le_of_succ_le_succ fits)
      simpa [List.range_succ_eq_map, Function.comp_def, here] using rest

/-- The first `bs.length` entries of a list are the list. -/
theorem map_getD_range (bs : List Byte) : ((List.range bs.length).map fun i => bs.getD i 0x00#8) = bs := by
  apply List.ext_getElem
  · simp
  · intro i _ inside
    simp [inside]

/-- Settles O31: in all three cases of the invariant LINE holds bytes other than 0x00 and then only 0x00. -/
theorem lineEndsAtFirstZero : Obligations.LineEndsAtFirstZero := by
  unfold Obligations.LineEndsAtFirstZero
  intro s holds
  obtain ⟨bs, fits, len, cells, nonzero⟩ := exists_holdsBytes holds
  have read (n : Nat) (le : n ≤ 27) :
      (List.range n).map s.block.line.read = (List.range n).map fun i => bs.getD i 0x00#8 :=
    List.map_congr_left fun i below => cells i ((List.mem_range.mp below).trans_le le)
  rw [read 27 le_rfl, takeWhile_cells nonzero 27 fits, len, read bs.length fits, map_getD_range]

end Sys2Proof.Proofs
end

section
/-! PROOFS. The step and the host: what each interaction does, that results hold over reads and drops, and that a
serialized context reads its own result (10_state.md R10, R13, R25; 60_exceptions.md R109 to R111). -/

namespace Sys2Proof.Proofs

open Sys2Proof.Machine Sys2Proof.Safety Sys2Proof.Laws

/-! ### One interaction -/

/-- Settles O2: the reset interaction writes the reset block and leaves the host's side. -/
theorem resetRestoresEveryRegister : Obligations.ResetRestoresEveryRegister := by
  unfold Obligations.ResetRestoresEveryRegister
  intro s ctx rest inputs
  exact ⟨_, step_reset inputs, holdsAbsence_reset, rfl, rfl, rfl⟩

/-- Settles O3: an issue, and a forward as an issue of RES_FRAME, run what the command decodes to. -/
theorem stepRunsDecodedOperation : Obligations.StepRunsDecodedOperation := by
  unfold Obligations.StepRunsDecodedOperation
  refine ⟨fun s ctx c rest i inputs decoded => ?issue, fun s ctx op rest i inputs decoded => ?forward,
    fun s ctx c rest e inputs undecoded => ?issueReserved,
    fun s ctx op rest e inputs undecoded => ?forwardReserved⟩
  case issue => rw [step_issue inputs, issue_decoded decoded]
  case forward => rw [step_forward inputs, issue_decoded decoded]
  case issueReserved => rw [step_issue inputs, issue_undecoded undecoded]
  case forwardReserved => rw [step_forward inputs, issue_undecoded undecoded]

/-- Settles O4: with no interaction to come there is none to serve. -/
theorem idleStepChangesNothing : Obligations.IdleStepChangesNothing := by
  unfold Obligations.IdleStepChangesNothing
  exact fun s empty => step_idle empty

section Reads

variable {s : State} {ctx : HostContext} {p : ReadPort} {rest : List HostEvent}
  (inputs : s.inputs = ⟨ctx, .read p⟩ :: rest)

include inputs

theorem step_read_ok {v : ReadValue} (read : readPort s.block p = .ok v) :
    step s = .next { s with inputs := rest, hostGot := some ⟨ctx, v⟩ } := by
  rw [step_read inputs, hostRead_ok (s := { s with inputs := rest }) read]

theorem step_read_error {f : Fault} (read : readPort s.block p = .error f) : step s = .fault f := by
  rw [step_read inputs, hostRead_error (s := { s with inputs := rest }) read]

end Reads

theorem readPort_lineCell (b : Block) {i : Nat} (below : i < 27) :
    readPort b (.lineCell i) = .ok (.lineCell i (b.line.read i)) := if_pos below

theorem readPort_absentCell (b : Block) {i : Nat} (above : 27 ≤ i) :
    readPort b (.lineCell i) = .error (.noLineCell i) := if_neg (not_lt.mpr above)

/-- Settles O43: each port reads its own register, and LINE[i] a cell only where one exists. -/
theorem readsReturnRegisters : Obligations.ReadsReturnRegisters := by
  unfold Obligations.ReadsReturnRegisters
  intro s ctx p rest inputs
  cases p with
  | lineCell i =>
    exact ⟨fun below => step_read_ok inputs (readPort_lineCell s.block below),
      fun above => step_read_error inputs (readPort_absentCell s.block above)⟩
  | _ => exact step_read_ok inputs rfl

/-! ### What stops -/

/-- A step with an interaction to come completes exactly when that interaction is presentable. -/
theorem step_completes_iff {s : State} {e : HostEvent} {rest : List HostEvent} (inputs : s.inputs = e :: rest) :
    (∃ t, step s = .next t) ↔ presentable e = true := by
  obtain ⟨ctx, act⟩ := e
  cases act with
  | issue c =>
    obtain ⟨b, writes⟩ := writes_issue c
    exact iff_of_true ⟨_, (step_issue inputs).trans (writes _)⟩ rfl
  | forward op =>
    obtain ⟨b, writes⟩ := writes_issue ⟨op, s.block.resFrame⟩
    exact iff_of_true ⟨_, (step_forward inputs).trans (writes _)⟩ rfl
  | read p =>
    rcases readPort_cases s.block p with ⟨v, read, fits⟩ | ⟨i, rfl, above, read⟩
    · exact iff_of_true ⟨_, step_read_ok inputs read⟩ fits
    · rw [step_read_error inputs read]
      simp [presentable, above]
  | drop => exact iff_of_true ⟨_, step_drop inputs⟩ rfl
  | reset => exact iff_of_true ⟨_, step_reset inputs⟩ rfl

/-- Settles O44: a step with nothing to come completes, and any other as its interaction is presentable. -/
theorem onlyAnAbsentCellStops : Obligations.OnlyAnAbsentCellStops := by
  unfold Obligations.OnlyAnAbsentCellStops
  intro s
  rcases inputs : s.inputs with - | ⟨e, rest⟩
  · exact iff_of_true (by simp) ⟨s, step_idle inputs⟩
  · rw [step_completes_iff inputs]
    constructor
    · exact fun all => all e rest rfl
    · rintro fits _ _ ⟨⟩
      exact fits

/-! ### Runs of reads and drops (10_state.md R13) -/

theorem step_keepsResults {s : State} {e : HostEvent} {rest : List HostEvent} (inputs : s.inputs = e :: rest)
    (keeps : keepsResults e = true) (fits : presentable e = true) :
    ∃ t, step s = .next t ∧ t.block = s.block ∧ t.inputs = rest := by
  obtain ⟨ctx, act⟩ := e
  cases act with
  | read p =>
    rcases readPort_cases s.block p with ⟨v, read, -⟩ | ⟨i, rfl, above, -⟩
    · exact ⟨_, step_read_ok inputs read, rfl, rfl⟩
    · exact absurd fits (by simp [presentable, above])
  | drop => exact ⟨_, step_drop inputs, rfl, rfl⟩
  | issue c => cases keeps
  | forward op => cases keeps
  | reset => cases keeps

/-- Settles O45, by induction on the list: each read or drop completes and hands the same block to the rest. -/
theorem resultsHoldBetweenOperations : Obligations.ResultsHoldBetweenOperations := by
  unfold Obligations.ResultsHoldBetweenOperations
  intro es
  induction es with
  | nil => exact fun rest s _ inputs => ⟨s, run_zero s, rfl, inputs⟩
  | cons e es ih =>
    intro rest s kept inputs
    obtain ⟨⟨keeps, fits⟩, later⟩ := List.forall_mem_cons.mp kept
    obtain ⟨t, next, block, inputs'⟩ := step_keepsResults inputs keeps fits
    obtain ⟨u, run, block', inputs''⟩ := ih rest t later inputs'
    exact ⟨u, (run_succ es.length next).trans run, block'.trans block, inputs''⟩

/-- A run that completes has a first step that does, and the rest of the run from there. -/
theorem step_of_run_succ {k : Nat} {s t : State} (run : Host.Core.run Sys2Proof.core (k + 1) s = .next t) :
    ∃ s', step s = .next s' ∧ Host.Core.run Sys2Proof.core k s' = .next t := by
  simp only [Host.Core.run] at run
  split at run
  case h_1 s' stepped => exact ⟨s', stepped, run⟩
  case h_2 => cases run
  case h_3 => cases run

/-- A run goes on from where a shorter run has come. -/
theorem run_add {m : Nat} {s t : State} (n : Nat) (shorter : Host.Core.run Sys2Proof.core m s = .next t) :
    Host.Core.run Sys2Proof.core (m + n) s = Host.Core.run Sys2Proof.core n t := by
  induction m generalizing s with
  | zero =>
    cases shorter
    rw [Nat.zero_add]
  | succ m ih =>
    obtain ⟨s', next, run⟩ := step_of_run_succ shorter
    rw [Nat.succ_add, run_succ _ next, ih run]

/-! ### Serialized contexts (60_exceptions.md R109) -/

theorem mem_overwritten {owner : Option HostContext} {lost : List HostContext} {ctx a : HostContext} :
    a ∈ overwritten owner lost ctx ↔ (owner = some a ∨ a ∈ lost) ∧ a ≠ ctx := by
  simp [overwritten, or_and_right]

/-- The rest of a serialized schedule after an interaction that is no reset: a read or a drop changes nothing, and
an issue or a forward takes the result over. -/
theorem serialized_cons {owner : Option HostContext} {lost : List HostContext} {e : HostEvent}
    {es : List HostEvent} (noReset : e.act ≠ .reset) (schedule : serialized owner lost (e :: es) = true) :
    (keepsResults e = true ∧ serialized owner lost es = true) ∨
      (keepsResults e = false ∧ serialized (some e.ctx) (overwritten owner lost e.ctx) es = true) := by
  obtain ⟨ctx, act⟩ := e
  cases act with
  | issue c => exact .inr ⟨rfl, schedule⟩
  | forward op => exact .inr ⟨rfl, (Bool.and_eq_true_iff.mp schedule).2⟩
  | read p => exact .inl ⟨rfl, (Bool.and_eq_true_iff.mp schedule).2⟩
  | drop => exact .inl ⟨rfl, schedule⟩
  | reset => exact absurd rfl noReset

/-- Between the context's own operation and its read nobody resets and the context itself issues nothing. -/
def Waits (a : HostContext) (mid : List HostEvent) : Prop :=
  ∀ e ∈ mid, e.act ≠ .reset ∧ (e.ctx = a → keepsResults e = true)

section Waiting

variable {a : HostContext} {p : ReadPort}

/-- A context whose result was overwritten may not read until it issues again. -/
theorem not_serialized_of_lost {mid : List HostEvent} (waits : Waits a mid) {owner : Option HostContext}
    {lost : List HostContext} (isLost : a ∈ lost) :
    ¬ serialized owner lost (mid ++ [⟨a, .read p⟩]) = true := by
  induction mid generalizing owner lost with
  | nil => simp [serialized, isLost]
  | cons e mid ih =>
    obtain ⟨⟨noReset, own⟩, later⟩ := List.forall_mem_cons.mp waits
    intro schedule
    rcases serialized_cons noReset schedule with ⟨-, rest⟩ | ⟨issues, rest⟩
    · exact ih later isLost rest
    · have foreign : a ≠ e.ctx := fun same => by simp [own same.symm] at issues
      exact ih later (mem_overwritten.mpr ⟨.inr isLost, foreign⟩) rest

/-- While a context that owns the result waits to read it, a serialized schedule holds only reads and drops. -/
theorem keepsResults_of_serialized {mid : List HostEvent} (waits : Waits a mid) {lost : List HostContext}
    (schedule : serialized (some a) lost (mid ++ [⟨a, .read p⟩]) = true) : ∀ e ∈ mid, keepsResults e = true := by
  induction mid with
  | nil => exact fun e mem => absurd mem List.not_mem_nil
  | cons e mid ih =>
    obtain ⟨⟨noReset, own⟩, later⟩ := List.forall_mem_cons.mp waits
    rcases serialized_cons noReset schedule with ⟨keeps, rest⟩ | ⟨issues, rest⟩
    · exact List.forall_mem_cons.mpr ⟨keeps, ih later rest⟩
    · have foreign : a ≠ e.ctx := fun same => by simp [own same.symm] at issues
      exact absurd rest (not_serialized_of_lost later (mem_overwritten.mpr ⟨.inl rfl, foreign⟩))

end Waiting

/-- Settles O46: serialization leaves only reads and drops between the operation and the read, and over those the
result holds. -/
theorem serializedContextReadsItsOwnResult : Obligations.SerializedContextReadsItsOwnResult := by
  unfold Obligations.SerializedContextReadsItsOwnResult
  intro a c mid rest p s t v inputs between schedule next read
  have waits : Waits a mid := fun e mem => (between e mem).2
  have keeps := keepsResults_of_serialized waits (lost := overwritten none [] a) schedule
  have inputs' : t.inputs = mid ++ ⟨a, .read p⟩ :: rest := by
    obtain ⟨b, writes⟩ := writes_issue c
    cases (writes _).symm.trans ((step_issue inputs).symm.trans next)
    rfl
  obtain ⟨u, run, block, inputs''⟩ :=
    resultsHoldBetweenOperations mid _ t (fun e mem => ⟨keeps e mem, (between e mem).1⟩) inputs'
  have last := step_read_ok inputs'' (v := v) (by rw [block]; exact read)
  refine ⟨{ u with inputs := rest, hostGot := some ⟨a, v⟩ }, ?_, rfl, block⟩
  calc Host.Core.run Sys2Proof.core (mid.length + 2) s
      = Host.Core.run Sys2Proof.core (mid.length + 1) t := run_succ _ next
    _ = Host.Core.run Sys2Proof.core 1 u := run_add 1 run
    _ = .next { u with inputs := rest, hostGot := some ⟨a, v⟩ } := run_succ 0 last

/-! ### The contexts are alike (60_exceptions.md R110) -/

/-- The second outcome has the first's registers and interactions to come, or stops with the first's fault. -/
def AnswersAlike (o o' : Host.Outcome State Fault Refusal) : Prop :=
  (∀ t, o = .next t → ∃ u, o' = .next u ∧ u.block = t.block ∧ u.inputs = t.inputs) ∧
    ∀ f, o = .fault f → o' = .fault f

theorem answersAlike_refl (o : Host.Outcome State Fault Refusal) : AnswersAlike o o :=
  ⟨fun t next => ⟨t, next, rfl, rfl⟩, fun _ stops => stops⟩

/-- The value read goes to the reading context, and that is all that differs. -/
theorem answersAlike_hostRead (a b : HostContext) (p : ReadPort) (s : State) :
    AnswersAlike (hostRead a p s) (hostRead b p s) := by
  rcases readPort_cases s.block p with ⟨v, read, -⟩ | ⟨i, -, -, read⟩
  · rw [hostRead_ok read, hostRead_ok read]
    constructor
    · rintro _ ⟨⟩
      exact ⟨_, rfl, rfl, rfl⟩
    · rintro _ ⟨⟩
  · rw [hostRead_error read, hostRead_error read]
    exact answersAlike_refl _

theorem answersAlike_serve (a b : HostContext) (act : HostAction) (s : State) :
    AnswersAlike (serve ⟨a, act⟩ s) (serve ⟨b, act⟩ s) := by
  cases act with
  | read p => exact answersAlike_hostRead a b p s
  | _ => exact answersAlike_refl _

/-- Settles O47: only a read looks at the context, and only to say who got the value. -/
theorem contextsAreAlike : Obligations.ContextsAreAlike := by
  unfold Obligations.ContextsAreAlike
  intro s a b act rest
  rw [step_cons (e := ⟨a, act⟩) (rest := rest) rfl, step_cons (e := ⟨b, act⟩) (rest := rest) rfl]
  exact answersAlike_serve a b act _

end Sys2Proof.Proofs
end

section
/-! PROOFS. The derived rules of 40_identifier.md, 41_frame_construct.md and 42_translate.md: what a successful
operation built from its operand, which fields its result word carries, and the round trips. -/

namespace Sys2Proof.Proofs

open Sys2Proof.Machine Sys2Proof.Safety Sys2Proof.Laws

/-! ### What a successful check has built -/

/-- A result came from the success write: the block tells an absence by RES_VALID (60_exceptions.md R100). -/
theorem ok_of_resValid {α : Type} {success : α → State → State} {r : Except Cause α} {s t : State}
    (next : conclude r success s = .next t) (result : t.block.resValid = 1#1) :
    ∃ x, r = .ok x ∧ t = success x s := by
  cases r with
  | ok x =>
    cases next
    exact ⟨x, rfl, rfl⟩
  | error c =>
    cases next
    exact absurd result (by simp)

section Built

variable {id : Identifier} {p : Payload} {n : BitVec 8} {f : ProtocolFrame} {d : DriverFrame}

/-- An identifier check that answers a value only where its identifier is valid, and then that identifier. -/
theorem identifier_of_ok {r : Except Cause Identifier} {id' : Identifier} (passed : ValidIdentifier id → r = .ok id)
    (failed : ¬ ValidIdentifier id → r = .error .idRange) (ok : r = .ok id') :
    ValidIdentifier id ∧ id' = id := by
  by_cases valid : ValidIdentifier id
  · cases (passed valid).symm.trans ok
    exact ⟨valid, rfl⟩
  · cases (failed valid).symm.trans ok

theorem pfData_ok (wf : p.wf = true) (ok : pfData id p = .ok f) :
    ValidProtocolFrame f ∧ f = ⟨id, .data, p.len, p.held⟩ := by
  rcases pfData_cases id wf with ⟨g, eq, valid, shape⟩ | eq | eq <;> cases eq.symm.trans ok
  exact ⟨valid, shape⟩

theorem pfRemote_ok (ok : pfRemote id n = .ok f) : ValidProtocolFrame f ∧ f = ⟨id, .remote, n, []⟩ := by
  rcases pfRemote_cases id n with ⟨g, eq, valid, shape⟩ | eq | eq <;> cases eq.symm.trans ok
  exact ⟨valid, shape⟩

theorem dfData_ok (wf : p.wf = true) (ok : dfData id p = .ok d) :
    ValidProtocolFrame ⟨id, .data, p.len, p.held⟩ ∧ d = driverOf ⟨id, .data, p.len, p.held⟩ := by
  rcases dfData_cases id wf with ⟨g, eq, valid, rfl⟩ | eq | eq <;> cases eq.symm.trans ok
  exact ⟨valid, rfl⟩

theorem dfRemote_ok (ok : dfRemote id n = .ok d) :
    ValidProtocolFrame ⟨id, .remote, n, []⟩ ∧ d = driverOf ⟨id, .remote, n, []⟩ := by
  rcases dfRemote_cases id n with ⟨g, eq, valid, rfl⟩ | eq | eq <;> cases eq.symm.trans ok
  exact ⟨valid, rfl⟩

theorem toDriver_ok (wf : f.wf = true) (ok : toDriver f = .ok d) : ValidProtocolFrame f ∧ d = driverOf f := by
  rcases toDriver_cases wf with ⟨valid, eq⟩ | ⟨c, -, eq⟩ <;> cases eq.symm.trans ok
  exact ⟨valid, rfl⟩

/-- The ProtocolFrame a driver frame is routed to (42_translate.md R80). -/
def protocolOf (d : DriverFrame) : ProtocolFrame :=
  match d.kind, d.payload with
  | .remote, _ => ⟨d.id, .remote, d.dlc, []⟩
  | .data, some p => ⟨d.id, .data, p.len, p.held⟩
  | .data, none => ⟨d.id, .data, 0#8, []⟩

theorem protocolOf_id (d : DriverFrame) : (protocolOf d).id = d.id := by
  unfold protocolOf
  split <;> rfl

theorem toProtocol_ok (wf : d.wf = true) (ok : toProtocol d = .ok f) :
    ValidProtocolFrame f ∧ f = protocolOf d := by
  obtain ⟨id, kind, dlc, payload⟩ := d
  by_cases valid : ValidIdentifier id
  · cases kind with
    | remote =>
      rw [toProtocol_remote valid] at ok
      exact pfRemote_ok ok
    | data =>
      cases payload with
      | some p =>
        rw [toProtocol_data_some valid] at ok
        exact pfData_ok wf ok
      | none =>
        cases (toProtocol_data_none valid dlc).symm.trans ok
        exact ⟨⟨valid, Nat.zero_le 8, rfl⟩, rfl⟩
  · cases (toProtocol_invalid (f := ⟨id, kind, dlc, payload⟩) valid).symm.trans ok

end Built

/-! ### Converting an identifier and back (40_identifier.md R65) -/

/-- Either conversion of an identifier result word gives that word again. -/
theorem issue_conversion_idWord {op : OpCode} (conversion : op ∈ [0x3#4, 0x4#4]) {id : Identifier}
    (valid : ValidIdentifier id) (s : State) :
    issue ⟨op, idWord id⟩ s = .next (complete .identifier (idWord id) s) := by
  rcases List.mem_pair.mp conversion with rfl | rfl
  · rw [issue_decoded (decode_toProtocolId _), readIdentifier_idWord, exec_toProtocolId, toProtocolId_valid valid,
      conclude_ok, completeIdentifier]
  · rw [issue_decoded (decode_toDriverId _), readIdentifier_idWord, exec_toDriverId, toDriverId_valid valid,
      conclude_ok, completeIdentifier]

theorem conversions_of_pair {ops : OpCode × OpCode} (pair : ops ∈ [(0x3#4, 0x4#4), (0x4#4, 0x3#4)]) :
    ops.1 ∈ [0x3#4, 0x4#4] ∧ ops.2 ∈ [0x3#4, 0x4#4] := by
  rcases List.mem_pair.mp pair with rfl | rfl <;> decide

/-- Settles O14: the operand is the identifier's result word, which both conversions give back. -/
theorem identifierRoundTrip : Obligations.IdentifierRoundTrip := by
  unfold Obligations.IdentifierRoundTrip
  intro id s t ops pair valid next
  have operand : (encode (.toProtocolId id)).opd = idWord id := rfl
  obtain ⟨first, second⟩ := conversions_of_pair pair
  rw [operand, issue_conversion_idWord first valid] at next
  cases next
  exact ⟨_, issue_conversion_idWord second valid _, rfl, rfl, wordIs_idWord id⟩

/-! ### The two constructors on one operand (41_frame_construct.md R78) -/

/-- Both blocks hold an absence with the same cause, or a protocol frame and a driver frame whose words differ by
the bits of `mask` alone. -/
def BlocksAgree (b b' : Block) (mask : FrameWord) : Prop :=
  b.resValid = b'.resValid ∧ b.resCause = b'.resCause ∧
    (b.resValid = 1#1 → b.resKind = 3#3 ∧ b'.resKind = 2#3 ∧ b.resFrame.extractLsb' 34 1 = 0#1 ∧
      b.resFrame.extractLsb' 48 8 = 0#8 ∧ b'.resFrame = b.resFrame ||| mask)

/-- The two constructors fail with the same cause, or build frames whose words differ by `mask` alone. -/
def BuildAlike (r : Except Cause ProtocolFrame) (r' : Except Cause DriverFrame) (mask : FrameWord) : Prop :=
  (∃ c, r = .error c ∧ r' = .error c) ∨
    ∃ f d, r = .ok f ∧ r' = .ok d ∧ driverWord d = protocolWord f ||| mask

theorem blocksAgree_of_buildAlike {r : Except Cause ProtocolFrame} {r' : Except Cause DriverFrame}
    {mask : FrameWord} (alike : BuildAlike r r' mask) {s t u : State}
    (first : conclude r completeProtocol s = .next t) (second : conclude r' completeDriver s = .next u) :
    BlocksAgree t.block u.block mask := by
  rcases alike with ⟨c, rfl, rfl⟩ | ⟨f, d, rfl, rfl, words⟩ <;> cases first <;> cases second
  · exact ⟨rfl, rfl, fun result => absurd result (by simp)⟩
  · exact ⟨rfl, rfl, fun _ => ⟨rfl, rfl, fieldPp_assembleWord _, fieldPlen_assembleWord _, words⟩⟩

/-- The bits of PP and PLEN, as a field list (30_encoding.md R42). -/
theorem assembleWord_pp_plen (n : BitVec 8) :
    assembleWord { pp := 1#1, plen := n } = (1#128 <<< 34) ||| (n.setWidth 128 <<< 48) := by
  apply BitVec.eq_of_getLsbD_eq
  intro j hj
  have pp : (1#128 <<< 34).getLsbD j = decide (j = 34) := by
    rw [BitVec.getLsbD_shiftLeft, BitVec.getLsbD_one]
    grind
  have plen : (n.setWidth 128 <<< 48).getLsbD j = (decide (48 ≤ j) && n.getLsbD (j - 48)) := by
    rw [BitVec.getLsbD_shiftLeft, BitVec.getLsbD_setWidth]
    grind
  rw [getLsbD_assembleWord, BitVec.getLsbD_or, pp, plen]
  split_ifs <;> grind

/-- The bitwise or of two words, field by field. -/
theorem assembleWord_or (f g : WordFields) :
    assembleWord f ||| assembleWord g = assembleWord
      { id := f.id ||| g.id, ide := f.ide ||| g.ide, rtr := f.rtr ||| g.rtr, pp := f.pp ||| g.pp
        len := f.len ||| g.len, plen := f.plen ||| g.plen, data := f.data ||| g.data } := by
  apply BitVec.eq_of_getLsbD_eq
  intro j _
  simp only [BitVec.getLsbD_or, getLsbD_assembleWord]
  split_ifs <;> rfl

/-- A data frame's driver word is its protocol word with PP and PLEN written in. -/
theorem driverWord_data (id : Identifier) (p : Payload) :
    driverWord ⟨id, .data, p.len, some p⟩ =
      protocolWord ⟨id, .data, p.len, p.held⟩ ||| ((1#128 <<< 34) ||| (p.len.setWidth 128 <<< 48)) := by
  rw [← assembleWord_pp_plen]
  simp only [driverWord, protocolWord, assembleWord_or, BitVec.or_zero, BitVec.zero_or]

/-- A remote frame's two words are one. -/
theorem driverWord_remote (id : Identifier) (n : BitVec 8) :
    driverWord ⟨id, .remote, n, none⟩ = protocolWord ⟨id, .remote, n, []⟩ ||| 0#128 := by
  rw [BitVec.or_zero]
  rfl

/-- On the same operand the checks are the same, in the same order. -/
theorem buildAlike_data {id : Identifier} {p : Payload} (wf : p.wf = true) :
    BuildAlike (pfData id p) (dfData id p) ((1#128 <<< 34) ||| (p.len.setWidth 128 <<< 48)) := by
  by_cases valid : ValidIdentifier id
  · rcases Nat.lt_or_ge 8 p.len.toNat with big | fits
    · exact .inl ⟨_, pfData_oversize valid big, dfData_oversize valid big⟩
    · exact .inr ⟨_, _, pfData_wellFormed valid fits wf, dfData_wellFormed valid fits wf, driverWord_data id p⟩
  · exact .inl ⟨_, pfData_invalid valid p, dfData_invalid valid p⟩

theorem buildAlike_remote (id : Identifier) (n : BitVec 8) :
    BuildAlike (pfRemote id n) (dfRemote id n) 0#128 := by
  by_cases valid : ValidIdentifier id
  · rcases Nat.lt_or_ge 8 n.toNat with big | fits
    · exact .inl ⟨_, pfRemote_oversize valid big, dfRemote_oversize valid big⟩
    · exact .inr ⟨_, _, pfRemote_valid valid fits, dfRemote_valid valid fits, driverWord_remote id n⟩
  · exact .inl ⟨_, pfRemote_invalid valid n, dfRemote_invalid valid n⟩

/-- Settles O19: the data pair reads one payload argument, the remote pair one length argument. -/
theorem constructorsAgree : Obligations.ConstructorsAgree := by
  unfold Obligations.ConstructorsAgree
  intro w s t u ops pair first second
  rcases List.mem_pair.mp pair with rfl | rfl
  · rw [issue_decoded (decode_pfNewData w), exec_pfNewData] at first
    rw [issue_decoded (decode_dfNewData w), exec_dfNewData] at second
    exact blocksAgree_of_buildAlike (buildAlike_data (wf_readPayload w)) first second
  · rw [issue_decoded (decode_pfNewRemote w), exec_pfNewRemote] at first
    rw [issue_decoded (decode_dfNewRemote w), exec_dfNewRemote] at second
    exact blocksAgree_of_buildAlike (buildAlike_remote _ _) first second

/-! ### What a result word carries (42_translate.md R86) -/

/-- The identifier an operation checks. -/
def checkedIdentifier : Instr → Identifier
  | .idStd v => ⟨.standard, v⟩
  | .idExt v => ⟨.extended, v⟩
  | .toProtocolId id | .toDriverId id => id
  | .pfNewData id _ | .dfNewData id _ | .pfNewRemote id _ | .dfNewRemote id _ => id
  | .toProtocol d => d.id
  | .toDriver f | .encodeLine f => f.id

/-- The length that a frame operation of the translator writes; 0 where it writes no frame. -/
def writtenLength : Instr → BitVec 8
  | .pfNewData _ p | .dfNewData _ p => p.len
  | .pfNewRemote _ n | .dfNewRemote _ n => n
  | .toProtocol d => (protocolOf d).len
  | .toDriver f => f.len
  | .idStd _ | .idExt _ | .toProtocolId _ | .toDriverId _ | .encodeLine _ => 0#8

/-- The word has this identifier, which is valid, and this length, which fits. -/
def Carries (w : FrameWord) (id : Identifier) (n : BitVec 8) : Prop :=
  ValidIdentifier id ∧ n.toNat ≤ 8 ∧ w.extractLsb' 0 32 = id.value ∧ w.extractLsb' 32 1 = ideBit id.tag ∧
    w.extractLsb' 40 8 = n

theorem carries_of_wordIs {w : FrameWord} {id : Identifier} {rtr pp : BitVec 1} {n plen : BitVec 8}
    {data : Nat → Byte} (valid : ValidIdentifier id) (fits : n.toNat ≤ 8)
    (fields : WordIs w id.value (ideBit id.tag) rtr pp n plen data) : Carries w id n := by
  obtain ⟨value, ide, -, -, -, len, -⟩ := fields
  exact ⟨valid, fits, value, ide, len⟩

theorem carries_idWord {id : Identifier} (valid : ValidIdentifier id) : Carries (idWord id) id 0#8 :=
  carries_of_wordIs valid (Nat.zero_le 8) (wordIs_idWord id)

theorem carries_protocolWord {f : ProtocolFrame} (valid : ValidProtocolFrame f) :
    Carries (protocolWord f) f.id f.len := by
  have ⟨validId, fits, _⟩ := valid
  exact carries_of_wordIs validId fits (wordIs_protocolWord valid)

theorem carries_driverOf {f : ProtocolFrame} (valid : ValidProtocolFrame f) :
    Carries (driverWord (driverOf f)) f.id f.len := by
  have ⟨validId, fits, _⟩ := valid
  cases kind : f.kind with
  | data => exact carries_of_wordIs validId fits (wordIs_driverOf_data valid kind)
  | remote => exact carries_of_wordIs validId fits (wordIs_driverOf_remote kind)

theorem carries_identifierResult {r : Except Cause Identifier} {id : Identifier} {s t : State}
    (passed : ValidIdentifier id → r = .ok id) (failed : ¬ ValidIdentifier id → r = .error .idRange)
    (next : conclude r completeIdentifier s = .next t) (result : t.block.resValid = 1#1) :
    Carries t.block.resFrame id 0#8 := by
  obtain ⟨x, ok, rfl⟩ := ok_of_resValid next result
  obtain ⟨valid, rfl⟩ := identifier_of_ok passed failed ok
  exact carries_idWord valid

/-- A result word carries the identifier its operation checked and the length it read. -/
theorem carries_exec {i : Instr} (wf : i.wf = true) (notLine : ∀ f, i ≠ .encodeLine f) {s t : State}
    (next : exec i s = .next t) (result : t.block.resValid = 1#1) :
    Carries t.block.resFrame (checkedIdentifier i) (writtenLength i) := by
  cases i with
  | idStd v => exact carries_identifierResult newIdentifier_valid newIdentifier_invalid next result
  | idExt v => exact carries_identifierResult newIdentifier_valid newIdentifier_invalid next result
  | toProtocolId id => exact carries_identifierResult toProtocolId_valid toProtocolId_invalid next result
  | toDriverId id => exact carries_identifierResult toDriverId_valid toDriverId_invalid next result
  | pfNewData id p =>
    obtain ⟨f, ok, rfl⟩ := ok_of_resValid next result
    obtain ⟨valid, rfl⟩ := pfData_ok wf ok
    exact carries_protocolWord valid
  | pfNewRemote id n =>
    obtain ⟨f, ok, rfl⟩ := ok_of_resValid next result
    obtain ⟨valid, rfl⟩ := pfRemote_ok ok
    exact carries_protocolWord valid
  | dfNewData id p =>
    obtain ⟨d, ok, rfl⟩ := ok_of_resValid next result
    obtain ⟨valid, rfl⟩ := dfData_ok wf ok
    exact carries_driverOf valid
  | dfNewRemote id n =>
    obtain ⟨d, ok, rfl⟩ := ok_of_resValid next result
    obtain ⟨valid, rfl⟩ := dfRemote_ok ok
    exact carries_driverOf valid
  | toProtocol d =>
    obtain ⟨f, ok, rfl⟩ := ok_of_resValid next result
    obtain ⟨valid, rfl⟩ := toProtocol_ok wf ok
    rw [checkedIdentifier, ← protocolOf_id]
    exact carries_protocolWord valid
  | toDriver f =>
    obtain ⟨d, ok, rfl⟩ := ok_of_resValid next result
    obtain ⟨valid, rfl⟩ := toDriver_ok wf ok
    exact carries_driverOf valid
  | encodeLine f => exact absurd rfl (notLine f)

/-! ### The operand's fields that are carried (30_encoding.md R43) -/

theorem ideBit_readIdentifier (w : FrameWord) : ideBit (readIdentifier w).tag = w.extractLsb' 32 1 :=
  (identifierOf_readIdentifier w).1

section Routes

variable {w : FrameWord}

theorem protocolOf_readDriver_remote (rtr : w.extractLsb' 33 1 = 1#1) :
    protocolOf (readDriver w) = ⟨readIdentifier w, .remote, w.extractLsb' 40 8, []⟩ := by
  simp [protocolOf, readDriver, fieldRtr, rtr, kindOfBit, fieldLen]

theorem protocolOf_readDriver_payload (rtr : w.extractLsb' 33 1 = 0#1) (pp : w.extractLsb' 34 1 = 1#1) :
    protocolOf (readDriver w) = ⟨readIdentifier w, .data, w.extractLsb' 48 8, (readPayload w).held⟩ := by
  simp [protocolOf, readDriver, fieldRtr, rtr, kindOfBit, fieldPp, pp, readPayload, fieldPlen]

theorem protocolOf_readDriver_noPayload (rtr : w.extractLsb' 33 1 = 0#1) (pp : w.extractLsb' 34 1 = 0#1) :
    protocolOf (readDriver w) = ⟨readIdentifier w, .data, 0#8, []⟩ := by
  simp [protocolOf, readDriver, fieldRtr, rtr, kindOfBit, fieldPp, pp]

end Routes

/-- The identifier checked is the ID field with the tag that IDE, or the operation itself, says. -/
theorem checkedIdentifier_of_decode {op : OpCode} {w : FrameWord} {i : Instr} (decoded : decode ⟨op, w⟩ = .ok i) :
    (checkedIdentifier i).value = w.extractLsb' 0 32 ∧ ideBit (checkedIdentifier i).tag =
      if op = 0x1#4 then 0#1 else if op = 0x2#4 then 1#1 else w.extractLsb' 32 1 := by
  obtain ⟨assigned, -, -⟩ := decode_ok decoded
  simp only [assignedOps, List.mem_cons, List.not_mem_nil, or_false] at assigned
  rcases assigned with rfl | rfl | withIde
  · cases decoded
    exact ⟨rfl, rfl⟩
  · cases decoded
    exact ⟨rfl, rfl⟩
  · rcases withIde with rfl | rfl | rfl | rfl | rfl | rfl | rfl | rfl | rfl <;> cases decoded <;>
      exact ⟨rfl, ideBit_readIdentifier w⟩

/-- The length written is the field that the operation's reading takes it from. -/
theorem writtenLength_of_decode {op : OpCode} {w : FrameWord} {i : Instr} (decoded : decode ⟨op, w⟩ = .ok i) :
    (op ∈ [0x5#4, 0x7#4] → writtenLength i = w.extractLsb' 48 8) ∧
      (op ∈ [0x6#4, 0x8#4, 0xA#4] → writtenLength i = w.extractLsb' 40 8) ∧
      (op = 0x9#4 → w.extractLsb' 33 1 = 1#1 → writtenLength i = w.extractLsb' 40 8) ∧
      (op = 0x9#4 → w.extractLsb' 33 1 = 0#1 → w.extractLsb' 34 1 = 1#1 →
        writtenLength i = w.extractLsb' 48 8) := by
  refine ⟨fun data => ?data, fun remote => ?remote, ?routeRemote, ?routeData⟩
  case data => rcases List.mem_pair.mp data with rfl | rfl <;> cases decoded <;> rfl
  case remote =>
    simp only [List.mem_cons, List.not_mem_nil, or_false] at remote
    rcases remote with rfl | rfl | rfl <;> cases decoded <;> rfl
  case routeRemote =>
    rintro rfl rtr
    cases decoded
    rw [writtenLength, protocolOf_readDriver_remote rtr]
  case routeData =>
    rintro rfl rtr pp
    cases decoded
    rw [writtenLength, protocolOf_readDriver_payload rtr pp]

theorem value_le_of_valid {id : Identifier} (valid : ValidIdentifier id) :
    id.value.toNat ≤ if ideBit id.tag = 0#1 then 0x7FF else 0x1FFFFFFF := by
  obtain ⟨tag, value⟩ := id
  cases tag <;> exact valid

/-- Settles O25: a result word carries the checked identifier and the length read, and those are the operand's
fields. -/
theorem translatorNeverTruncates : Obligations.TranslatorNeverTruncates := by
  unfold Obligations.TranslatorNeverTruncates
  intro op w s t next result notLine
  rcases issue_cases ⟨op, w⟩ s with ⟨-, absent⟩ | ⟨i, decoded, wf, runs⟩
  · cases absent.symm.trans next
    exact absurd result (by simp)
  have notEncode (f : ProtocolFrame) : i ≠ .encodeLine f := by
    rintro rfl
    obtain ⟨-, -, sameOp⟩ := decode_ok decoded
    exact notLine sameOp.symm
  obtain ⟨valid, fits, value, ide, len⟩ := carries_exec wf notEncode (runs.symm.trans next) result
  obtain ⟨idField, tagField⟩ := checkedIdentifier_of_decode decoded
  obtain ⟨data, remote, routeRemote, routeData⟩ := writtenLength_of_decode decoded
  have read {n : BitVec 8} (same : writtenLength i = n) :
      n.toNat ≤ 8 ∧ t.block.resFrame.extractLsb' 40 8 = n := by
    subst same
    exact ⟨fits, len⟩
  refine ⟨value.trans idField, ?range, ide.trans tagField, fun op => read (data op), fun op => read (remote op),
    fun op rtr => read (routeRemote op rtr), fun op rtr pp => read (routeData op rtr pp)⟩
  case range =>
    rw [ide, ← idField]
    exact value_le_of_valid valid

end Sys2Proof.Proofs
end

section
/-! PROOFS. The round trips of 42_translate.md and the receive path of 43_line_encode.md R94 and R95: issuing an
operation on the result word of a valid frame succeeds, since the word reads back as the frame. -/

namespace Sys2Proof.Proofs

open Sys2Proof.Machine Sys2Proof.Safety Sys2Proof.Laws

/-! ### Operations on result words (30_encoding.md R45) -/

section ResultWords

variable {f : ProtocolFrame} (valid : ValidProtocolFrame f) (s : State)

include valid

theorem exec_encodeLine_valid :
    exec (.encodeLine f) s = .next (completeLine (renderLine defaultLine f) s) := by
  have ⟨validId, fits, _⟩ := valid
  rw [exec_encodeLine, encodeLine_valid defaultLine validId fits, conclude_ok]

theorem issue_encodeLine_protocolWord :
    issue ⟨0xB#4, protocolWord f⟩ s = .next (completeLine (renderLine defaultLine f) s) := by
  rw [issue_decoded (decode_encodeLine _), readProtocol_protocolWord valid, exec_encodeLine_valid valid]

theorem issue_toDriver_protocolWord :
    issue ⟨0xA#4, protocolWord f⟩ s = .next (complete .driverFrame (driverWord (driverOf f)) s) := by
  rw [issue_decoded (decode_toDriver _), readProtocol_protocolWord valid, exec_toDriver, toDriver_of_valid valid,
    conclude_ok, completeDriver]

/-- The driver frame made of a valid frame meets the invariants of 10_state.md R21. -/
theorem validDriverFrame_driverOf : ValidDriverFrame (driverOf f) := by
  obtain ⟨id, kind, len, payload⟩ := f
  obtain ⟨validId, fits, shape⟩ := valid
  cases kind with
  | data => exact ⟨validId, fits, fits, shape⟩
  | remote => exact ⟨validId, fits, trivial⟩

/-- Translating the driver frame back gives the frame: its payload is as long as its length code says. -/
theorem toProtocol_driverOf : toProtocol (driverOf f) = .ok f := by
  obtain ⟨id, kind, len, payload⟩ := f
  obtain ⟨validId, fits, shape⟩ := valid
  cases kind with
  | data =>
    have count : payload.length = len.toNat := shape
    have small : len.toNat ≤ 8 := fits
    have wf : (⟨len, payload⟩ : Payload).wf = true := by simp [Payload.wf, count, small]
    exact (toProtocol_data_some validId len _).trans (pfData_wellFormed validId fits wf)
  | remote =>
    have empty : payload = [] := shape
    subst empty
    exact (toProtocol_remote validId len _).trans (pfRemote_valid validId fits)

theorem issue_toProtocol_driverWord :
    issue ⟨0x9#4, driverWord (driverOf f)⟩ s = .next (complete .protocolFrame (protocolWord f) s) := by
  rw [issue_decoded (decode_toProtocol _), readDriver_driverWord (validDriverFrame_driverOf valid), exec_toProtocol,
    toProtocol_driverOf valid, conclude_ok, completeProtocol]

/-- Forwarding a valid frame's protocol word to ENCODE_LINE renders it, whoever forwards. -/
theorem step_forward_encodeLine {s : State} {ctx : HostContext} {rest : List HostEvent}
    (inputs : s.inputs = ⟨ctx, .forward 0xB#4⟩ :: rest) (word : s.block.resFrame = protocolWord f) :
    step s = .next (completeLine (renderLine defaultLine f) { s with inputs := rest }) := by
  rw [step_forward inputs, word, issue_encodeLine_protocolWord valid]

/-- Forwarding the driver word of a valid frame to TO_PROTOCOL gives the frame's protocol word. -/
theorem step_forward_toProtocol {s : State} {ctx : HostContext} {rest : List HostEvent}
    (inputs : s.inputs = ⟨ctx, .forward 0x9#4⟩ :: rest) (word : s.block.resFrame = driverWord (driverOf f)) :
    step s = .next (complete .protocolFrame (protocolWord f) { s with inputs := rest }) := by
  rw [step_forward inputs, word, issue_toProtocol_driverWord valid]

end ResultWords

/-- Settles O23: TO_DRIVER leaves the frame's driver word, and TO_PROTOCOL of that word leaves the frame's own. -/
theorem protocolDriverRoundTrip : Obligations.ProtocolDriverRoundTrip := by
  unfold Obligations.ProtocolDriverRoundTrip
  intro f s a b rest valid inputs
  have toDriver := (step_issue inputs).trans (issue_toDriver_protocolWord valid _)
  exact ⟨_, _, toDriver, rfl, rfl, step_forward_toProtocol valid rfl rfl,
    holdsFrame_complete .protocolFrame _ _, wordIs_protocolWord valid⟩

/-! ### Driver to protocol to driver (42_translate.md R85) -/

/-- TO_PROTOCOL with a result has written the valid frame that the operand is routed to. -/
theorem toProtocol_result {w : FrameWord} {s t : State} (next : issue ⟨0x9#4, w⟩ s = .next t)
    (result : t.block.resValid = 1#1) :
    ValidProtocolFrame (protocolOf (readDriver w)) ∧
      t = complete .protocolFrame (protocolWord (protocolOf (readDriver w))) s := by
  rw [issue_decoded (decode_toProtocol w), exec_toProtocol] at next
  obtain ⟨f, ok, rfl⟩ := ok_of_resValid next result
  obtain ⟨valid, rfl⟩ := toProtocol_ok (wf_readDriver w) ok
  exact ⟨valid, rfl⟩

theorem byteAt_dataBytes (w : FrameWord) (n : Nat) :
    byteAt (dataBytes w n) = fun i => if i < n then w.extractLsb' (64 + 8 * i) 8 else 0#8 := by
  funext i
  split_ifs with below
  · simp [byteAt, List.getD_eq_getElem?_getD, getElem?_dataBytes w n i below, dataByte]
  · exact List.getD_eq_default _ _ (by simpa using below)

/-- A payload that fits is held whole. -/
theorem held_readPayload {w : FrameWord} (fits : (w.extractLsb' 48 8).toNat ≤ 8) :
    (readPayload w).held = dataBytes w (w.extractLsb' 48 8).toNat := by
  rw [readPayload, fieldPlen, Nat.min_eq_left fits]

section Rows

variable {w : FrameWord}

/-- The driver word that goes back, for an operand with RTR 0 and PP 1. -/
theorem wordIs_routed_payload (valid : ValidProtocolFrame (protocolOf (readDriver w)))
    (rtr : w.extractLsb' 33 1 = 0#1) (pp : w.extractLsb' 34 1 = 1#1) :
    WordIs (driverWord (driverOf (protocolOf (readDriver w)))) (w.extractLsb' 0 32) (w.extractLsb' 32 1) 0#1 1#1
      (w.extractLsb' 48 8) (w.extractLsb' 48 8) fun i =>
        if i < (w.extractLsb' 48 8).toNat then w.extractLsb' (64 + 8 * i) 8 else 0#8 := by
  rw [protocolOf_readDriver_payload rtr pp] at valid ⊢
  have ⟨_, fits, _⟩ := valid
  rw [← ideBit_readIdentifier, ← byteAt_dataBytes, ← held_readPayload fits]
  exact wordIs_driverOf_data valid rfl

/-- The driver word that goes back, for an operand with RTR 0 and PP 0. -/
theorem wordIs_routed_noPayload (valid : ValidProtocolFrame (protocolOf (readDriver w)))
    (rtr : w.extractLsb' 33 1 = 0#1) (pp : w.extractLsb' 34 1 = 0#1) :
    WordIs (driverWord (driverOf (protocolOf (readDriver w)))) (w.extractLsb' 0 32) (w.extractLsb' 32 1) 0#1 1#1
      0#8 0#8 fun _ => 0#8 := by
  rw [protocolOf_readDriver_noPayload rtr pp] at valid ⊢
  rw [← ideBit_readIdentifier, ← byteAt_nil]
  exact wordIs_driverOf_data valid rfl

/-- The driver word that goes back, for an operand with RTR 1. -/
theorem wordIs_routed_remote (rtr : w.extractLsb' 33 1 = 1#1) :
    WordIs (driverWord (driverOf (protocolOf (readDriver w)))) (w.extractLsb' 0 32) (w.extractLsb' 32 1) 1#1 0#1
      (w.extractLsb' 40 8) 0#8 fun _ => 0#8 := by
  rw [protocolOf_readDriver_remote rtr, ← ideBit_readIdentifier]
  exact wordIs_driverOf_remote rfl

end Rows

/-- Settles O24: the protocol frame between is the one the operand is routed to, and the five rows of the rule's
table are its three routes. -/
theorem driverProtocolRoundTrip : Obligations.DriverProtocolRoundTrip := by
  unfold Obligations.DriverProtocolRoundTrip
  intro w s t next result
  obtain ⟨valid, rfl⟩ := toProtocol_result next result
  exact ⟨_, issue_toDriver_protocolWord valid _, holdsFrame_complete .driverFrame _ _,
    wordIs_routed_payload valid, wordIs_routed_noPayload valid, wordIs_routed_remote⟩

/-! ### The receive path (43_line_encode.md R94, R95) -/

/-- A held PROTOCOL_FRAME is the result word of a valid frame. -/
theorem exists_protocolWord_of_resKind {s : State} (holds : Invariant s) (kind : s.block.resKind = 3#3) :
    ∃ f, ValidProtocolFrame f ∧ s.block.resFrame = protocolWord f := by
  obtain ⟨-, ⟨cause, -, absence⟩ | frame | line⟩ := holds
  · obtain ⟨-, -, noKind, -⟩ := absence
    exact absurd (noKind.symm.trans kind) (by decide)
  · rcases frame with ⟨⟨-, -, other, -⟩, -⟩ | ⟨⟨-, -, other, -⟩, -⟩ | ⟨-, f, valid, fields⟩
    · exact absurd (other.symm.trans kind) (by decide)
    · exact absurd (other.symm.trans kind) (by decide)
    · exact ⟨f, valid, eq_of_wordIs fields (wordIs_protocolWord valid)⟩
  · obtain ⟨bs, ⟨-, -, other, -⟩, -⟩ := line
    exact absurd (other.symm.trans kind) (by decide)

/-- Settles O41: the held frame word is that of a valid frame, on which both operations succeed. -/
theorem forwardedProtocolFrameAccepted : Obligations.ForwardedProtocolFrameAccepted := by
  unfold Obligations.ForwardedProtocolFrameAccepted
  intro s ctx rest holds kind
  obtain ⟨f, valid, word⟩ := exists_protocolWord_of_resKind holds kind
  refine ⟨fun inputs => ?line, fun inputs => ?driver⟩
  case line =>
    exact ⟨_, step_forward_encodeLine valid inputs word, rfl, rfl⟩
  case driver =>
    rw [step_forward inputs, word, issue_toDriver_protocolWord valid]
    exact ⟨_, rfl, rfl, rfl⟩

/-- Settles O42: an absence would break the duty, so a frame is forwarded. -/
theorem dutifulReceivePathRenders : Obligations.DutifulReceivePathRenders := by
  unfold Obligations.DutifulReceivePathRenders
  intro w s t ctx rest next inputs duty
  have result : t.block.resValid = 1#1 := (BitVec.eq_zero_or_eq_one _).resolve_left fun absent =>
    duty absent _ rest inputs 0xB#4 rfl
  obtain ⟨valid, rfl⟩ := toProtocol_result next result
  exact ⟨_, step_forward_encodeLine valid inputs rfl, rfl, rfl⟩

/-- Settles O32: the first step runs TO_PROTOCOL on the encoded frame; its result is forwarded as the word of a valid
frame, whose line fits. -/
theorem receivePathLine : Obligations.ReceivePathLine := by
  unfold Obligations.ReceivePathLine
  intro d s a b rest wf inputs
  rw [step_issue inputs, issue_decoded (decodeOfEncode (.toProtocol d) wf), exec_toProtocol]
  rcases toProtocol_cases wf with ⟨g, ok, valid⟩ | ⟨c, -, failed⟩
  · have ⟨validId, fits, _⟩ := valid
    rw [ok, conclude_ok]
    exact ⟨_, rfl, .inl ⟨g, renderLine defaultLine g, _, rfl, encodeLine_valid defaultLine validId fits, valid,
      step_forward_encodeLine valid rfl rfl, holdsLine_completeLine _ (length_renderLine_le defaultLine valid) _⟩⟩
  · rw [failed, conclude_error]
    exact ⟨_, rfl, .inr ⟨c, rfl, holdsAbsence_raiseAbsent c _⟩⟩

end Sys2Proof.Proofs
end

section
/-! PROOFS. The derived rules of 43_line_encode.md and 30_encoding.md R51: the shape of a line in the LINE cells, its
length from its first bytes, and that a line determines its frame. -/

namespace Sys2Proof.Proofs

open Sys2Proof.Machine Sys2Proof.Safety Sys2Proof.Laws

/-- A valid remote frame holds no payload bytes (10_state.md R22). -/
theorem payload_remote_of_valid {f : ProtocolFrame} (valid : ValidProtocolFrame f) (remote : f.kind = .remote) :
    f.payload = [] := by
  obtain ⟨-, -, shape⟩ := valid
  simpa only [remote] using shape

/-! ### The cells of a line (43_line_encode.md R92) -/

section HeldLine

variable {b : Block} {bs : List Byte} (held : HoldsLine b bs) (fits : bs.length ≤ 27)

include held

theorem lineLen_of_holdsLine : b.lineLen.toNat = bs.length := by
  obtain ⟨-, -, -, -, len, -⟩ := held
  exact len

/-- Past the line every cell is 0x00. -/
theorem read_after_line {i : Nat} (isCell : i < 27) (after : bs.length ≤ i) : b.line.read i = 0x00#8 := by
  obtain ⟨-, -, -, -, -, cells⟩ := held
  rw [cells i isCell, List.getD_eq_default _ _ after]

include fits

theorem read_of_getElem? {i : Nat} {c : Byte} (here : bs[i]? = some c) : b.line.read i = c := by
  obtain ⟨-, -, -, -, -, cells⟩ := held
  obtain ⟨inside, -⟩ := List.getElem?_eq_some_iff.mp here
  rw [cells i (inside.trans_le fits), List.getD_eq_getElem?_getD, here, Option.getD_some]

/-- Before the last byte a cell holds one of the bytes before the terminator. -/
theorem read_mem_dropLast {i : Nat} (before : i < bs.length - 1) : b.line.read i ∈ bs.dropLast := by
  have inside : i < bs.length := before.trans_le (Nat.sub_le _ _)
  have inside' : i < bs.dropLast.length := by rwa [List.length_dropLast]
  rw [read_of_getElem? held fits (List.getElem?_eq_getElem inside), ← List.getElem_dropLast inside']
  exact List.getElem_mem inside'

end HeldLine

/-- Settles O28: the rendered line is in the cells, so its last byte is the terminator and every byte before it is one
of the alphabet, which the terminator is not. -/
theorem lineShape : Obligations.LineShape := by
  unfold Obligations.LineShape
  intro f s valid
  have fits := length_renderLine_le defaultLine valid
  have held := holdsLine_completeLine (renderLine defaultLine f) fits s
  refine ⟨_, exec_encodeLine_valid valid s, ?_⟩
  rw [lineLen_of_holdsLine held]
  refine ⟨length_renderLine defaultLine valid, le_length_renderLine defaultLine valid, fits,
    read_of_getElem? held fits (getElem?_renderLine_last defaultLine f), fun i before => ?inside,
    fun i isCell after => read_after_line held isCell after⟩
  case inside =>
    have alphabet := lineByte_of_mem_dropLast f _ (read_mem_dropLast held fits before)
    exact ⟨ne_terminator_of_lineByte alphabet, alphabet⟩

/-! ### The length from the first bytes (30_encoding.md R51) -/

/-- A marker byte tells tag and kind, and so where the length digit stands. -/
theorem lengthFromFirstBytes_of_marker {cell : Nat → Byte} {tag : IdTag} {kind : FrameKind}
    (marker : cell 0 = slcanMarker tag kind) :
    lengthFromFirstBytes cell = lineLength tag kind ((cell (digitsOf tag + 1)).toNat - 0x30) := by
  cases tag <;> cases kind <;> simp [lengthFromFirstBytes, marker, slcanMarker]

/-- The decimal digits are the bytes from '0' on (30_encoding.md R47). -/
theorem toNat_hexDigit_decimal (v : BitVec 4) (decimal : v.toNat ≤ 9) :
    (hexDigit defaultLine v).toNat - 0x30 = v.toNat := by
  revert v
  decide

theorem toNat_lowNibble {n : BitVec 8} (fits : n.toNat ≤ 8) : (n.extractLsb' 0 4).toNat = n.toNat := by
  rw [BitVec.extractLsb'_toNat, Nat.shiftRight_zero]
  exact Nat.mod_eq_of_lt (fits.trans_lt (by decide))

/-- Settles O30: LINE[0] is the frame's marker and the length digit is that of LEN, which is at most 8. -/
theorem lineLengthFromFirstBytes : Obligations.LineLengthFromFirstBytes := by
  unfold Obligations.LineLengthFromFirstBytes
  intro f s t valid next
  cases (exec_encodeLine_valid valid s).symm.trans next
  have ⟨_, small, _⟩ := valid
  have fits := length_renderLine_le defaultLine valid
  have held := holdsLine_completeLine (renderLine defaultLine f) fits s
  have lengthDigit := toNat_lowNibble small
  rw [lengthFromFirstBytes_of_marker (read_of_getElem? held fits (getElem?_renderLine_marker defaultLine f)),
    read_of_getElem? held fits (getElem?_renderLine_length defaultLine f), lineLen_of_holdsLine held,
    length_renderLine defaultLine valid, toNat_hexDigit_decimal _ (by omega), lengthDigit]

/-! ### A line determines its frame (43_line_encode.md R93) -/

/-- A value below 16^n is decided by its `n` low nibbles. -/
theorem eq_of_nibbles {m n : Nat} {v w : BitVec m} (hv : v.toNat < 2 ^ (4 * n)) (hw : w.toNat < 2 ^ (4 * n))
    (nibbles : ∀ k < n, v.extractLsb' (4 * k) 4 = w.extractLsb' (4 * k) 4) : v = w := by
  apply BitVec.eq_of_getLsbD_eq
  intro j _
  rcases Nat.lt_or_ge j (4 * n) with low | high
  · have bit := congrArg (fun x => x.getLsbD (j % 4)) (nibbles (j / 4) (by omega))
    simpa [BitVec.getLsbD_extractLsb', Nat.mod_lt, Nat.div_add_mod] using bit
  · have above {x : BitVec m} (hx : x.toNat < 2 ^ (4 * n)) : x.getLsbD j = false :=
      Nat.testBit_lt_two_pow (hx.trans_le (Nat.pow_le_pow_right (by decide) high))
    rw [above hv, above hw]

/-- A marker determines tag and kind: the letter's case tells the tag (93_implementation_defined.md I1). -/
theorem marker_injective {cfg : LineConfig} (markers : MarkersOk cfg) {t t' : IdTag} {k k' : FrameKind}
    (same : cfg.marker t k = cfg.marker t' k') : t = t' ∧ k = k' := by
  obtain ⟨lower, upper, distinct⟩ := markers
  have cases_differ (k k' : FrameKind) : cfg.marker .standard k ≠ cfg.marker .extended k' := by
    intro eq
    obtain ⟨low, -⟩ := lower k
    obtain ⟨-, high⟩ := upper k'
    rw [eq] at low
    exact absurd (BitVec.le_trans low high) (by decide)
  have tags : t = t' := by
    cases t <;> cases t'
    · rfl
    · exact absurd same (cases_differ k k')
    · exact absurd same.symm (cases_differ k' k)
    · rfl
  subst tags
  refine ⟨rfl, ?_⟩
  cases k <;> cases k'
  · rfl
  · exact absurd same (distinct t)
  · exact absurd same.symm (distinct t)
  · rfl

section SameLine

variable {cfg : LineConfig} {f g : ProtocolFrame}

/-- Equal entries that are hex digits are digits of the same nibble. -/
theorem nibble_eq_of_getElem? {bs : List Byte} {i : Nat} {a b : BitVec 4} (left : bs[i]? = some (hexDigit cfg a))
    (right : bs[i]? = some (hexDigit cfg b)) : a = b :=
  hexDigit_injective cfg a b (Option.some.inj (left.symm.trans right))

/-- A valid identifier value has no more nibbles than its line has digits (30_encoding.md R49). -/
theorem value_lt_of_valid {id : Identifier} (valid : ValidIdentifier id) :
    id.value.toNat < 2 ^ (4 * digitsOf id.tag) := by
  obtain ⟨tag, value⟩ := id
  cases tag
  · exact Nat.lt_of_le_of_lt valid (show 0x7FF < 2 ^ (4 * 3) by decide)
  · exact Nat.lt_of_le_of_lt valid (show 0x1FFFFFFF < 2 ^ (4 * 8) by decide)

variable (same : renderLine cfg f = renderLine cfg g)

include same

theorem tag_kind_eq_of_line (markers : MarkersOk cfg) : f.id.tag = g.id.tag ∧ f.kind = g.kind := by
  have left := getElem?_renderLine_marker cfg f
  rw [same] at left
  exact marker_injective markers (Option.some.inj (left.symm.trans (getElem?_renderLine_marker cfg g)))

theorem value_eq_of_line (tags : f.id.tag = g.id.tag) (validF : ValidIdentifier f.id)
    (validG : ValidIdentifier g.id) : f.id.value = g.id.value := by
  have below := value_lt_of_valid validG
  rw [← tags] at below
  refine eq_of_nibbles (value_lt_of_valid validF) below fun k low => ?_
  -- Nibble `k` is digit `D - 1 - k`.
  have place : digitsOf f.id.tag - 1 - (digitsOf f.id.tag - 1 - k) = k := by omega
  have digit : digitsOf f.id.tag - 1 - k < digitsOf f.id.tag := by omega
  have left := getElem?_renderLine_id cfg f _ digit
  have right := getElem?_renderLine_id cfg g _ (tags ▸ digit)
  rw [place, same] at left
  rw [← tags, place] at right
  exact nibble_eq_of_getElem? left right

theorem len_eq_of_line (tags : f.id.tag = g.id.tag) (fitsF : f.len.toNat ≤ 8) (fitsG : g.len.toNat ≤ 8) :
    f.len = g.len := by
  have left := getElem?_renderLine_length cfg f
  have right := getElem?_renderLine_length cfg g
  rw [same, tags] at left
  have low := congrArg BitVec.toNat (nibble_eq_of_getElem? left right)
  rw [toNat_lowNibble fitsF, toNat_lowNibble fitsG] at low
  exact BitVec.eq_of_toNat_eq low

/-- Payload bytes are decided by their two digits (20_memory.md R32). -/
theorem byteAt_eq_of_line (tags : f.id.tag = g.id.tag) (lens : f.len = g.len) (dataF : f.kind = .data)
    (dataG : g.kind = .data) (countF : f.payload.length = f.len.toNat) (countG : g.payload.length = g.len.toNat)
    {i : Nat} (inside : i < f.len.toNat) : byteAt f.payload i = byteAt g.payload i := by
  obtain ⟨highF, lowF⟩ := getElem?_renderLine_payload cfg dataF countF i inside
  obtain ⟨highG, lowG⟩ := getElem?_renderLine_payload cfg dataG countG i (lens ▸ inside)
  rw [same, tags] at highF lowF
  have high := nibble_eq_of_getElem? highF highG
  have low := nibble_eq_of_getElem? lowF lowG
  refine eq_of_nibbles (n := 2) (BitVec.isLt _) (BitVec.isLt _) fun k below => ?_
  rcases Nat.lt_succ_iff_lt_or_eq.mp below with first | rfl
  · rw [Nat.lt_one_iff.mp first]
    exact low
  · exact high

theorem payload_eq_of_line (tags : f.id.tag = g.id.tag) (lens : f.len = g.len) (kinds : f.kind = g.kind)
    (validF : ValidProtocolFrame f) (validG : ValidProtocolFrame g) : f.payload = g.payload := by
  cases kind : f.kind with
  | data =>
    have dataG : g.kind = .data := kinds.symm.trans kind
    have countF := length_payload_of_valid validF kind
    have countG := length_payload_of_valid validG dataG
    apply List.ext_getElem
    · rw [countF, countG, lens]
    · intro i insideF insideG
      have bytes := byteAt_eq_of_line same tags lens kind dataG countF countG (countF ▸ insideF)
      simpa [byteAt, insideF, insideG] using bytes
  | remote =>
    rw [payload_remote_of_valid validF kind, payload_remote_of_valid validG (kinds.symm.trans kind)]

end SameLine

/-- Settles O29: marker, identifier digits, length digit and payload digits give the frame's fields one by one. -/
theorem lineDeterminesFrame : Obligations.LineDeterminesFrame := by
  unfold Obligations.LineDeterminesFrame
  intro cfg f g bs markers validF validG lineF lineG
  have ⟨idF, fitsF, _⟩ := validF
  have ⟨idG, fitsG, _⟩ := validG
  have same : renderLine cfg f = renderLine cfg g := by
    cases (encodeLine_valid cfg idF fitsF).symm.trans lineF
    exact (Except.ok.inj ((encodeLine_valid cfg idG fitsG).symm.trans lineG)).symm
  obtain ⟨tags, kinds⟩ := tag_kind_eq_of_line same markers
  have values := value_eq_of_line same tags idF idG
  have lens := len_eq_of_line same tags fitsF fitsG
  have payloads := payload_eq_of_line same tags lens kinds validF validG
  obtain ⟨⟨tag, value⟩, kind, len, payload⟩ := f
  obtain ⟨⟨tag', value'⟩, kind', len', payload'⟩ := g
  simp only at tags kinds values lens payloads
  rw [tags, kinds, values, lens, payloads]

end Sys2Proof.Proofs
end
